-- ==== Sys2Proof/Word.lean ====
section
/-! DEFINITION. The plain value types: bytes, line levels, line identifiers, texts, segment sequences. -/

namespace Sys2Proof

/-- A byte: 8 bits, unsigned (00_scope.md R9). Segment bytes (R45) and characters (R58) are bytes. -/
abbrev Byte := BitVec 8

/-- The level of a line: `false` is 0 (low), `true` is 1 (high) (00_scope.md R9, glossary). -/
abbrev Level := Bool

/-- A line identifier: opaque to the block, compared for equality only (00_scope.md R8, 91_not_in_source.md N21). -/
abbrev LineId := Nat

/-- A text: characters with their number, no terminator, any of the 256 codes (30_encoding.md R59). -/
abbrev Text := List Byte

/-- A segment sequence: segment bytes in the order a reader sees them (00_scope.md glossary). -/
abbrev Segs := List Byte

/-- A display position: 0 to 5 (20_memory.md R36). -/
abbrev Position := Fin 6

end Sys2Proof
end

