-- ==== Sys2Proof/Config.lean ====
section
/-! DEFINITION. The parameters the source fixes (00_scope.md R8), the open parameters of the model and the free
values, the last two as constants with no body: nothing in Lean can tell their values.
The host port's open parameters, `TEXT_MAX` and `NUM_BITS`, are the fields of `HostPort` (WellFormed.lean). -/

namespace Sys2Proof.Config

/-- `T_HOLD`: the delay after a line-level set, in microseconds (R8). -/
def tHold : Nat := 10

/-- `N_SLOTS`: the number of digit slots (R8). -/
def nSlots : Nat := 6

/-- `POS_MAX`: the largest position (R8). -/
def posMax : Nat := 5

/-- `BRIGHT_DEFAULT`: the brightness INIT uses when the caller gives none (R8). -/
def brightDefault : Int := 7

/-- `CMD_DATA`: the data-command byte (R8, R49). -/
def cmdData : Byte := 0x40#8

/-- `CMD_ADDR_BASE`: the address-command base (R8, R50). -/
def cmdAddrBase : Byte := 0xC0#8

/-- `CMD_DISP_BASE`: the display-control base (R8, R51). -/
def cmdDispBase : Byte := 0x80#8

/-- `DISP_ON`: the "display on" flag (R8, R51). -/
def dispOn : Byte := 0x08#8

/-- `AUX_BIT`: the auxiliary bit of a segment byte (R8, R45). -/
def auxBit : Byte := 0x80#8

/-- DESIGN CHOICE (entry 3; 92_eei_decisions.md D20, "a single-engine model may drop the identifiers and fix two
outputs"): the clock output of an engine whose INIT leaves the clock-line identifier out. -/
def clkLine : LineId := 256

/-- DESIGN CHOICE (entry 3): the data output of an engine whose INIT leaves the data-line identifier out. -/
def dioLine : LineId := 257

/-- The open parameter `SEG_TABLE`, less its bit 7, which R33 fixes at 0 (20_memory.md R32, D6; entry 5). -/
opaque segBits : Fin 39 → BitVec 7

/-- The open parameter `HEX_FMT` (43_host_operations.md R104, D14; entry 6): for each 16-bit value and each of the six
places of its text, which of the 255 codes other than `.` stands there. -/
opaque hexGlyph : BitVec 16 → Fin 6 → Fin 255

/-- The open parameter `DEC_FMT` (43_host_operations.md R105, D15; entry 7): a function of the value, of which nothing else
is known. -/
opaque decText : Int → Text

/-- Free value: what `BRIGHT` holds after the n-th reset, before INIT writes it (10_state.md R22, U12; entry 9). -/
opaque freeBright : Nat → BitVec 3

/-- Free value: the level `CLK` holds after the n-th reset, while its driver is off (10_state.md R22; entry 9). -/
opaque freeClk : Nat → Level

/-- Free value: the level `DIO` holds after the n-th reset, while its driver is off (10_state.md R22; entry 9). -/
opaque freeDio : Nat → Level

end Sys2Proof.Config
end

