-- ==== Sys2Proof/Syntax.lean ====
section
/-! DEFINITION. The operations: one constructor for each row of spec/opcode_table.json. -/

namespace Sys2Proof

/-- The operations of the block (30_encoding.md R56, R57) and the three wire command bytes (R49 to R51).
Numeric operands are integers, since the rules are stated over all integers (R54, D4; entry 4);
`Instr.wf` (WellFormed.lean) says which of them a request can carry. An absent line identifier is one the caller leaves out
(R61, D20, D24; entry 3). -/
inductive Instr where
  /-- CMD_DATA, the byte 0x40 (R49). -/
  | cmdData
  /-- CMD_ADDR, the byte `0xC0 | pos` (R50). -/
  | cmdAddr (pos : Position)
  /-- CMD_DISP, the byte `0x88 | b` (R51). -/
  | cmdDisp (b : BitVec 3)
  /-- INIT (R100). -/
  | init (clkLine dioLine : Option LineId) (brightness : Int)
  /-- SET_BRIGHTNESS (R101). -/
  | setBrightness (value : Int)
  /-- WRITE (R102). -/
  | write (segs : Segs) (pos : Int)
  /-- SHOW (R103). -/
  | showText (text : Text) (colon : Bool)
  /-- SHOW_HEX (R104). -/
  | showHex (value : Int)
  /-- SHOW_NUMBER (R105). -/
  | showNumber (value : Int)
  /-- ENCODE_DIGIT (R65). -/
  | encodeDigit (value : Int)
  /-- ENCODE_CHAR (R66). -/
  | encodeChar (ch : Byte)
  /-- ENCODE_STRING (R67). -/
  | encodeString (text : Text)
  /-- START, the start condition (R82). -/
  | start
  /-- STOP, the stop condition (R83). -/
  | stop
  /-- WRITE_BYTE (R84). -/
  | writeByte (v : Byte)
  /-- DATA_CMD (R90). -/
  | dataCmd
  /-- DISP_CTRL (R91). -/
  | dispCtrl
  deriving DecidableEq, Repr

end Sys2Proof
end

