-- ==== Sys2Proof/WellFormed.lean ====
section
/-! DEFINITION. Which operations a request can carry: the operand widths the spec decides for the host port (30_encoding.md
R57, D4) and the model's own for line identifiers (entry 3); then, with the host port's two open parameters as arguments,
which operations one port carries. The meanings themselves are defined on every operand. -/

namespace Sys2Proof

/-- An 8-bit unsigned operand of the host port (R57). -/
abbrev FitsByte (v : Int) : Prop := 0 ≤ v ∧ v < 256

/-- A line identifier as one byte of a request carries it; 0 stands for one left out (entry 3). -/
abbrev FitsLine (l : Option LineId) : Prop := l.all (fun (n : Nat) => decide (1 ≤ n ∧ n < 256)) = true

/-- The operation can be carried by a request. Texts, segment sequences and SHOW_NUMBER's integer may be of any size: the
rules bound none of them (R59, 43_host_operations.md R105). -/
def Instr.wf : Instr → Bool
  | .cmdData => true
  | .cmdAddr _ => true
  | .cmdDisp _ => true
  | .init clk dio b => decide (FitsLine clk ∧ FitsLine dio ∧ FitsByte b)
  | .setBrightness v => decide (FitsByte v)
  | .write _ pos => decide (FitsByte pos)
  | .showText _ _ => true
  | .showHex v => decide (0 ≤ v ∧ v < 65536)
  | .showNumber _ => true
  | .encodeDigit v => decide (FitsByte v)
  | .encodeChar _ => true
  | .encodeString _ => true
  | .start => true
  | .stop => true
  | .writeByte _ => true
  | .dataCmd => true
  | .dispCtrl => true

/-! ## The open parameters of the host port -/

/-- The host port's open parameters (00_scope.md R8; 92_eei_decisions.md D5, D15). No meaning depends on them: a port only
bounds what is presented. -/
structure HostPort where
  /-- `TEXT_MAX`, the longest text the port carries: a number, or `none` for no bound. -/
  textMax : Option Nat
  /-- `NUM_BITS`, the width of SHOW_NUMBER's operand. -/
  numBits : Nat
  /-- Whether that operand is signed. -/
  numSigned : Bool
  deriving DecidableEq, Repr

/-- A text of at most `TEXT_MAX` characters. -/
abbrev HostPort.FitsText (port : HostPort) (text : Text) : Prop :=
  port.textMax.all (fun n => decide (text.length ≤ n)) = true

/-- An integer of `NUM_BITS` bits: in two's complement when it is signed. -/
abbrev HostPort.FitsNumber (port : HostPort) (v : Int) : Prop :=
  if port.numSigned then -(2 ^ port.numBits) ≤ 2 * v ∧ 2 * v < 2 ^ port.numBits else 0 ≤ v ∧ v < 2 ^ port.numBits

/-- The port's operand fields carry the operation's operands (R57): exactly six segment bytes (42_command_frames.md R96), a
text within `TEXT_MAX`, a number within `NUM_BITS`. -/
def HostPort.carries (port : HostPort) (i : Instr) : Bool :=
  i.wf && match i with
  | .cmdData => true
  | .cmdAddr _ => true
  | .cmdDisp _ => true
  | .init _ _ _ => true
  | .setBrightness _ => true
  | .write segs _ => decide (segs.length = 6)
  | .showText text _ => decide (port.FitsText text)
  | .showHex _ => true
  | .showNumber v => decide (port.FitsNumber v)
  | .encodeDigit _ => true
  | .encodeChar _ => true
  | .encodeString text => decide (port.FitsText text)
  | .start => true
  | .stop => true
  | .writeByte _ => true
  | .dataCmd => true
  | .dispCtrl => true

end Sys2Proof
end

