-- ==== Sys2Proof/Decode.lean ====
section
/-! DEFINITION. The byte form of an operation: the wire command bytes (30_encoding.md R49 to R51), the op-select codes
(R56, one byte each, the four upper bits 0) and the operand fields after them (R57; the layout is the model's own,
DESIGN CHOICE, entry 2). First the decoder, total on any bytes, then the encoder, both from the same tables. -/

namespace Sys2Proof

/-! ## The wire command bytes -/

/-- `CMD_ADDR(pos)`: the byte `0xC0 | pos` (R50). -/
def addrByte (p : Position) : Byte := Config.cmdAddrBase ||| BitVec.ofNat 8 p.val

/-- `CMD_DISP(b)`: the byte `0x80 | 0x08 | b` (R51). -/
def dispByte (b : BitVec 3) : Byte := Config.cmdDispBase ||| Config.dispOn ||| b.setWidth 8

/-! ## The table of first bytes -/

/-- What a first byte announces: the rows of spec/opcode_table.json, and the form of WRITE that says how many segment
bytes it carries (entry 2; 42_command_frames.md R96: the host port's own form carries exactly six). -/
inductive Kind where
  | cmdData | cmdAddr | cmdDisp | init | setBrightness | write | writeCounted | showText | showHex | showNumber
  | encodeDigit | encodeChar | encodeString | start | stop | writeByte | dataCmd | dispCtrl
  deriving DecidableEq, Repr

/-- A row: a first byte `b` announces `kind` when `b &&& mask = pattern`. -/
structure Row where
  mask : Byte
  pattern : Byte
  kind : Kind
  deriving DecidableEq, Repr

/-- The wire command bytes (R49 to R51). -/
def wireRows : List Row :=
  [⟨0xFF#8, 0x40#8, .cmdData⟩, ⟨0xF8#8, 0xC0#8, .cmdAddr⟩, ⟨0xF8#8, 0x88#8, .cmdDisp⟩]

/-- The op-select codes (R56), and the counted form of WRITE (entry 2). -/
def opselRows : List Row :=
  [⟨0xFF#8, 0x00#8, .init⟩, ⟨0xFF#8, 0x01#8, .setBrightness⟩, ⟨0xFF#8, 0x02#8, .write⟩, ⟨0xFF#8, 0x03#8, .showText⟩,
   ⟨0xFF#8, 0x04#8, .showHex⟩, ⟨0xFF#8, 0x05#8, .showNumber⟩, ⟨0xFF#8, 0x06#8, .encodeDigit⟩,
   ⟨0xFF#8, 0x07#8, .encodeChar⟩, ⟨0xFF#8, 0x08#8, .encodeString⟩, ⟨0xFF#8, 0x09#8, .start⟩, ⟨0xFF#8, 0x0A#8, .stop⟩,
   ⟨0xFF#8, 0x0B#8, .writeByte⟩, ⟨0xFF#8, 0x0C#8, .dataCmd⟩, ⟨0xFF#8, 0x0D#8, .dispCtrl⟩,
   ⟨0xFF#8, 0x12#8, .writeCounted⟩]

/-- All rows. -/
def rows : List Row := wireRows ++ opselRows

/-- The kind a first byte announces. -/
def kindOf (b : Byte) : Option Kind := (rows.find? fun r => b &&& r.mask == r.pattern).map Row.kind

/-- The op-select codes the spec reserves: 0xE and 0xF (R56, R122). -/
def reservedCode (b : Byte) : Bool := b == 0x0E#8 || b == 0x0F#8

/-! ## The decoder -/

/-- Why bytes are no operation. -/
inductive DecodeError where
  /-- The op-select code is 0xE or 0xF (R122, order 1). -/
  | reservedOp
  /-- The bytes are the form of no operation (entry 29). -/
  | noSuchOperation
  /-- The operand bytes end too early (entry 29). -/
  | truncated
  deriving DecidableEq, Repr

/-- A byte read as an unsigned operand. -/
def byteInt (b : Byte) : Int := (b.toNat : Int)

/-- A line-identifier byte: 0 when the caller leaves it out (entry 3). -/
def lineOfByte (b : Byte) : Option LineId := if b = 0#8 then none else some b.toNat

/-- The first `n` bytes and what follows them, when there are so many. -/
def takeBytes (n : Nat) (bs : List Byte) : Option (List Byte × List Byte) :=
  if n ≤ bs.length then some (bs.take n, bs.drop n) else none

/-- Two bytes, the lower first, as a 16-bit operand (entry 2). -/
def halfInt (lo hi : Byte) : Int := ((hi ++ lo : BitVec 16).toNat : Int)

/-- A number of any size: a byte below 128 is its last; after a byte from 128 up, which counts for itself, 128 times the
number that the bytes after it make (entry 2). Each number has exactly one such form. -/
def natField : List Byte → Option (Nat × List Byte)
  | [] => none
  | b :: bs =>
    if b.toNat < 128 then some (b.toNat, bs)
    else match natField bs with
      | some (n, rest) => some (128 * n + b.toNat, rest)
      | none => none

/-- An integer as a number: `2 v` for `v ≥ 0`, `-2 v - 1` below (entry 2). -/
def intOfCode (n : Nat) : Int := if n % 2 = 0 then .ofNat (n / 2) else .negSucc (n / 2)

/-- The position in an address-command byte; 6 and 7 are never sent (R50, R53). -/
def addrPos (b : Byte) : Option Position := if h : (b &&& 0x07#8).toNat < 6 then some ⟨_, h⟩ else none

/-- A text with its length before it (entry 2). -/
def textField (bs : List Byte) : Option (Text × List Byte) :=
  match natField bs with
  | some (n, rest) => takeBytes n rest
  | none => none

/-- SHOW's operands: a text, then one byte that is 0 or 1 (entry 2). -/
def showOperands (bs : List Byte) : Except DecodeError (Instr × List Byte) :=
  match textField bs with
  | some (text, c :: rest) =>
    if c = 0#8 then .ok (.showText text false, rest)
    else if c = 1#8 then .ok (.showText text true, rest)
    else .error .noSuchOperation
  | some (_, []) => .error .truncated
  | none => .error .truncated

/-- WRITE's operands: so many segment bytes, then the position. -/
def writeOperands (n : Nat) (bs : List Byte) : Except DecodeError (Instr × List Byte) :=
  match takeBytes n bs with
  | some (segs, p :: rest) => .ok (.write segs (byteInt p), rest)
  | some (_, []) => .error .truncated
  | none => .error .truncated

/-- The operands of a kind; `b` is the first byte, `bs` what follows it. -/
def operands (k : Kind) (b : Byte) (bs : List Byte) : Except DecodeError (Instr × List Byte) :=
  match k with
  | .cmdData => .ok (.cmdData, bs)
  | .cmdAddr => match addrPos b with
    | some p => .ok (.cmdAddr p, bs)
    | none => .error .noSuchOperation
  | .cmdDisp => .ok (.cmdDisp (b.setWidth 3), bs)
  | .init => match bs with
    | c :: d :: v :: rest => .ok (.init (lineOfByte c) (lineOfByte d) (byteInt v), rest)
    | _ => .error .truncated
  | .setBrightness => match bs with
    | v :: rest => .ok (.setBrightness (byteInt v), rest)
    | [] => .error .truncated
  | .write => writeOperands 6 bs
  | .writeCounted => match natField bs with
    | some (n, rest) => if n = 6 then .error .noSuchOperation else writeOperands n rest
    | none => .error .truncated
  | .showText => showOperands bs
  | .showHex => match bs with
    | lo :: hi :: rest => .ok (.showHex (halfInt lo hi), rest)
    | _ => .error .truncated
  | .showNumber => match natField bs with
    | some (n, rest) => .ok (.showNumber (intOfCode n), rest)
    | none => .error .truncated
  | .encodeDigit => match bs with
    | v :: rest => .ok (.encodeDigit (byteInt v), rest)
    | [] => .error .truncated
  | .encodeChar => match bs with
    | c :: rest => .ok (.encodeChar c, rest)
    | [] => .error .truncated
  | .encodeString => match textField bs with
    | some (text, rest) => .ok (.encodeString text, rest)
    | none => .error .truncated
  | .start => .ok (.start, bs)
  | .stop => .ok (.stop, bs)
  | .writeByte => match bs with
    | v :: rest => .ok (.writeByte v, rest)
    | [] => .error .truncated
  | .dataCmd => .ok (.dataCmd, bs)
  | .dispCtrl => .ok (.dispCtrl, bs)

/-- The decoder: the operation that the front of the bytes is, and the bytes after it. -/
def decode : List Byte → Except DecodeError (Instr × List Byte)
  | [] => .error .truncated
  | b :: bs =>
    match kindOf b with
    | some k => operands k b bs
    | none => if reservedCode b then .error .reservedOp else .error .noSuchOperation

/-! ## The encoder -/

/-- An unsigned operand as a byte. -/
def intByte (v : Int) : Byte := BitVec.ofInt 8 v

/-- A line identifier as a byte, 0 when it is left out (entry 3). -/
def byteOfLine : Option LineId → Byte
  | none => 0#8
  | some n => BitVec.ofNat 8 n

/-- The bytes of a number of any size; `fuel` bounds their count (entry 2). -/
def natBytesFrom : Nat → Nat → List Byte
  | 0, n => [BitVec.ofNat 8 n]
  | fuel + 1, n =>
    if n < 128 then [BitVec.ofNat 8 n] else BitVec.ofNat 8 (128 + n % 128) :: natBytesFrom fuel (n / 128 - 1)

/-- The bytes of a number of any size. -/
def natBytes (n : Nat) : List Byte := natBytesFrom n n

/-- The number that stands for an integer. -/
def codeOfInt : Int → Nat
  | .ofNat n => 2 * n
  | .negSucc n => 2 * n + 1

/-- A sequence with its length before it. -/
def counted (bs : List Byte) : List Byte := natBytes bs.length ++ bs

/-- Byte `k` of a wider operand, the lowest first. -/
def byteAt {w : Nat} (v : BitVec w) (k : Nat) : Byte := v.extractLsb' (8 * k) 8

/-- SHOW's colon operand, one bit in a byte of its own. -/
def colonByte (c : Bool) : Byte := if c then 1#8 else 0#8

/-- The bytes of an operation. -/
def encode : Instr → List Byte
  | .cmdData => [Config.cmdData]
  | .cmdAddr p => [addrByte p]
  | .cmdDisp b => [dispByte b]
  | .init c d v => [0x00#8, byteOfLine c, byteOfLine d, intByte v]
  | .setBrightness v => [0x01#8, intByte v]
  | .write segs p =>
    if segs.length = 6 then 0x02#8 :: (segs ++ [intByte p])
    else 0x12#8 :: (counted segs ++ [intByte p])
  | .showText t c => 0x03#8 :: (counted t ++ [colonByte c])
  | .showHex v => let x := BitVec.ofInt 16 v; [0x04#8, byteAt x 0, byteAt x 1]
  | .showNumber v => 0x05#8 :: natBytes (codeOfInt v)
  | .encodeDigit v => [0x06#8, intByte v]
  | .encodeChar c => [0x07#8, c]
  | .encodeString t => 0x08#8 :: counted t
  | .start => [0x09#8]
  | .stop => [0x0A#8]
  | .writeByte v => [0x0B#8, v]
  | .dataCmd => [0x0C#8]
  | .dispCtrl => [0x0D#8]

/-- The form an operation is encoded in. -/
def kindOfInstr : Instr → Kind
  | .cmdData => .cmdData
  | .cmdAddr _ => .cmdAddr
  | .cmdDisp _ => .cmdDisp
  | .init _ _ _ => .init
  | .setBrightness _ => .setBrightness
  | .write segs _ => if segs.length = 6 then .write else .writeCounted
  | .showText _ _ => .showText
  | .showHex _ => .showHex
  | .showNumber _ => .showNumber
  | .encodeDigit _ => .encodeDigit
  | .encodeChar _ => .encodeChar
  | .encodeString _ => .encodeString
  | .start => .start
  | .stop => .stop
  | .writeByte _ => .writeByte
  | .dataCmd => .dataCmd
  | .dispCtrl => .dispCtrl

/-! ## Words of spec/opcode_table.json -/

/-- The bytes of a table word: its own bytes, the lowest first, then operand bytes of zeros. -/
def wordBytes (nbits w : Nat) : List Byte :=
  (List.range ((nbits + 7) / 8)).map (fun k => BitVec.ofNat 8 (w >>> (8 * k))) ++ List.replicate 16 0#8

/-- The operation the decoder reads from a table word. -/
def decodeTableWord (nbits w : Nat) : Option Instr :=
  match decode (wordBytes nbits w) with
  | .ok (i, _) => some i
  | .error _ => none

end Sys2Proof
end

