-- ==== Sys2Proof/Machine/State.lean ====
section
/-! DEFINITION. The state of one engine, as plain data; the reasons a step can stop; the state after reset. -/

namespace Sys2Proof.Machine

/-- The two lines (41_wire_primitives.md R80). -/
inductive Line where
  | clk
  | dio
  deriving DecidableEq, Repr

/-- The two kinds of event, and no others (R80): `SET(L, v)` and `WAIT(n)`. -/
inductive Event where
  | set (line : Line) (level : Level)
  | wait (microseconds : Nat)
  deriving DecidableEq, Repr

/-- A value returned to the caller: `RESULT[7:0]` or `RESULT_SEQ` (30_encoding.md R57; D2). -/
inductive Result where
  | byte (v : Byte)
  | seq (segs : Segs)
  deriving DecidableEq, Repr

/-- Who issues an operation (30_encoding.md R56, "issued by"). -/
inductive Issuer where
  /-- The host, through the host port. -/
  | host
  /-- The engine itself: the internal sequences and the bytes it puts on the wire (entries 15, 16). -/
  | engine
  deriving DecidableEq, Repr

/-- What the outside presents to the block (D2, D17; 70_reset_and_hazards.md R140, R145, R147). -/
inductive Input where
  /-- An operation, as bytes. `cut = some k`: a reset falls after its first `k` events, or after its last event when it
  has fewer (R147; entry 11). -/
  | request (issuer : Issuer) (bytes : List Byte) (cut : Option Nat)
  /-- The reset input, while no operation runs (R140). -/
  | reset
  deriving DecidableEq, Repr

/-- The faults of the block: there are none. "The block raises no exception, has no cause codes, records no faulting
address and has no error output" (60_exceptions.md R120), so nothing raises one: exact, hence safe. -/
inductive Fault where
  deriving DecidableEq, Repr

/-- The reasons for a refusal (60_exceptions.md R122): no event, no state change, the run ends. -/
inductive Refusal where
  /-- Raised by the host port: the op-select code is 0xE or 0xF (order 1). Safe. -/
  | reservedOp
  /-- Raised by the host port: an internal sequence (order 2) or a wire command byte (entry 16). Safe. -/
  | notHostIssuable
  /-- Raised by SET_BRIGHTNESS, WRITE, SHOW, SHOW_HEX, SHOW_NUMBER while `INITED = 0` (order 3). Safe. -/
  | notInitialised
  /-- Raised by INIT while `INITED = 1` (order 4). Safe. -/
  | alreadyInitialised
  /-- Raised by INIT when the two line identifiers are equal (order 5). Safe. -/
  | sameLine
  /-- Raised by INIT when another engine owns one of its lines (order 6). Safe. -/
  | sharedLine
  /-- Raised by WRITE when the number of segment bytes is neither 6 nor 3 (order 7). Safe. -/
  | badSegmentCount
  /-- Raised by ENCODE_STRING, SHOW, SHOW_HEX, SHOW_NUMBER when the text has more than six characters other than `.`
  (order 8). Safe. -/
  | textTooLong
  /-- The model's own: the bytes of a request are the form of no operation (entry 29). Safe. -/
  | noSuchOperation
  /-- The model's own: the operand bytes of a request end too early (entry 29). Safe. -/
  | truncatedRequest
  /-- Raised by `exec` alone, for an operation that has no meaning yet. Safe. No arm uses it now. -/
  | notModelled (mnemonic : String)
  deriving DecidableEq, Repr

/-- The state of one engine. -/
structure State where
  /-- `INITED` (10_state.md R10, R14). -/
  inited : Bool
  /-- `BRIGHT`, 3 bits (R11, R18). -/
  bright : BitVec 3
  /-- `CLK`, the level last set on the clock line (R12). -/
  clk : Level
  /-- `DIO`, the level last set on the data line (R13). -/
  dio : Level
  /-- The output enable of `CLK` (92_eei_decisions.md D2; R140). -/
  clkOut : Bool
  /-- The output enable of `DIO` (D2; R140). -/
  dioOut : Bool
  /-- The identifiers of the clock line and the data line, once INIT has bound them (R100, D20). -/
  binding : Option (LineId × LineId)
  /-- `BUSY` (R20). -/
  busy : Bool
  /-- The sequence position of the operation in progress (R16). -/
  seqPos : Option Nat
  /-- The events so far, in order (R23). -/
  trace : List Event
  /-- The values returned so far, in order (00_scope.md R6). -/
  results : List Result
  /-- What the outside has presented and the block has not taken, oldest first (D2, D17). -/
  inputs : List Input
  /-- The lines other engines own (60_exceptions.md R122 order 6, R131; entry 20). -/
  foreignLines : List LineId
  /-- The model's own counter of resets, which picks the free values of entry 9. -/
  resets : Nat
  /-- The model's own: the texts that the open parameter `DEC_FMT` has for some values, as plain data (43_host_operations.md
  R105, D15: "a model takes these as arguments"; entry 7). No operation and no reset changes it. -/
  decTexts : List (Int × Text)
  deriving DecidableEq, Repr

/-- The state right after reset (10_state.md R22, 70_reset_and_hazards.md R140): `INITED = 0`, `BUSY = 0`, both line
drivers off, no operation in progress, trace empty. `BRIGHT`, `CLK`, `DIO` are unspecified: free values (entry 9). The
model names the rest (entries 9, 10). -/
def State.reset : State where
  inited := false
  bright := Config.freeBright 0
  clk := Config.freeClk 0
  dio := Config.freeDio 0
  clkOut := false
  dioOut := false
  binding := none
  busy := false
  seqPos := none
  trace := []
  results := []
  inputs := []
  foreignLines := []
  resets := 0
  decTexts := []

/-- The three outcomes of an operation on this machine. -/
abbrev Outcome := Host.Outcome State Fault Refusal

end Sys2Proof.Machine
end

