-- ==== Sys2Proof/Machine/Operands.lean ====
section
/-! DEFINITION. Operand treatment (30_encoding.md R54), the permutation (42_command_frames.md R92), the open formatters
(43_host_operations.md R104, R105) and the defaulted operands (R62). -/

namespace Sys2Proof.Machine

/-- `clamp(v, lo, hi)` (00_scope.md R9). -/
def clamp (v lo hi : Int) : Int := if v < lo then lo else if v > hi then hi else v

/-- INIT's brightness: `clamp(v, 0, 7)` (R54, R100). -/
def initBrightness (v : Int) : BitVec 3 := BitVec.ofInt 3 (clamp v 0 7)

/-- SET_BRIGHTNESS's value: `v mod 8` (R54, R101). -/
def maskBrightness (v : Int) : BitVec 3 := BitVec.ofInt 3 (v % 8)

/-- WRITE's position: `clamp(pos, 0, 5)` (R54, R102). -/
def clampPosition (v : Int) : Position := Fin.ofNat 6 (clamp v 0 5).toNat

/-- ENCODE_DIGIT's table index: `v mod 16` (R54, R65). -/
def digitIndex (v : Int) : Fin 39 := Fin.ofNat 39 (v % 16).toNat

/-- SHOW_HEX's value: `v mod 65536`, 16 bits (R54, R104). -/
def hexValue (v : Int) : BitVec 16 := BitVec.ofInt 16 (v % 65536)

/-- `PERM(i) = (i div 3)*6 + 2 - i` (R92). -/
def perm (i : Nat) : Nat := (i / 3) * 6 + 2 - i

/-- `[segs[PERM(i)] for i in 0..n-1]` (R93). An index outside the sequence gives no byte; for the lengths R96 admits
there is none. -/
def permuted (segs : Segs) : List Byte := (List.range segs.length).filterMap fun i => segs[perm i]?

/-- The lengths DATA_XFER takes: 6 and 3 (R96). -/
def segCountOk (segs : Segs) : Bool := segs.length == 6 || segs.length == 3

/-- The line an INIT operand names; one left out is the engine's own output (entry 3). -/
def lineOr (own : LineId) (l : Option LineId) : LineId := l.getD own

/-- The code `.`, which ENCODE_STRING folds (30_encoding.md R58). -/
def dot : Byte := 0x2E#8

/-- The x-th of the 255 codes other than `.`. -/
def codeNotDot (x : Fin 255) : Byte := if x.val < 0x2E then BitVec.ofNat 8 x.val else BitVec.ofNat 8 (x.val + 1)

/-- `HEX_FMT`: of it a model may assume only that it gives six characters, none of them `.`, and depends on the value
alone (R104, D14; entry 6). -/
def hexFmt (v : BitVec 16) : Text := (List.finRange 6).map fun k => codeNotDot (Config.hexGlyph v k)

/-- The number of characters of a text that are not `.`: `d` (40_segment_encoder.md R67, R70). -/
def symbols (text : Text) : Nat := (text.filter (· != dot)).length

/-- `DEC_FMT`: of it a model may assume only that it depends on the value alone (R105, D15). DESIGN CHOICE (entry 7): the
parameter is given as data for the values listed, and is the opaque `Config.decText` for every other. -/
def decFmt (fixed : List (Int × Text)) (v : Int) : Text :=
  match fixed.lookup v with
  | some t => t
  | none => Config.decText v

/-! ## Defaulted operands (R62) -/

/-- `INIT` with no brightness is `INIT 7`. -/
def initDefault (c d : Option LineId) : Instr := .init c d Config.brightDefault

/-- `WRITE segs` with no position is `WRITE segs, 0`. -/
def writeDefault (segs : Segs) : Instr := .write segs 0

/-- `SHOW text` with no colon flag is `SHOW text, false`. -/
def showDefault (text : Text) : Instr := .showText text false

end Sys2Proof.Machine
end

