-- ==== Sys2Proof/Machine/Encoder.lean ====
section
/-! DEFINITION. The segment encoder (40_segment_encoder.md): the table and the three pure functions. -/

namespace Sys2Proof.Machine

/-- `SEG_TABLE[i]`: an open parameter with bit 7 clear (20_memory.md R32, R33; entry 5). -/
def segTable (i : Fin 39) : Byte := (Config.segBits i).setWidth 8

/-- `BLANK = SEG_TABLE[36]` (R31; entry 14). -/
def blank : Byte := segTable 36

/-- `DASH = SEG_TABLE[37]` (R31; entry 14). -/
def dash : Byte := segTable 37

/-- `STAR = SEG_TABLE[38]` (R31; entry 14). -/
def star : Byte := segTable 38

/-- ENCODE_DIGIT (R65). -/
def encodeDigit (value : Int) : Byte := segTable (digitIndex value)

/-- The table index ENCODE_CHAR reads, the checks in the source's order (R66; the codes are ASCII, entry 13). -/
def charIndex (ch : Byte) : Fin 39 :=
  let c := ch.toNat
  if c = 0x20 then 36
  else if c = 0x2A then 38
  else if c = 0x2D then 37
  else if 0x41 ≤ c ∧ c ≤ 0x5A then Fin.ofNat 39 (c - 0x41 + 10)
  else if 0x61 ≤ c ∧ c ≤ 0x7A then Fin.ofNat 39 (c - 0x61 + 10)
  else if 0x30 ≤ c ∧ c ≤ 0x39 then Fin.ofNat 39 (c - 0x30)
  else 38

/-- ENCODE_CHAR (R66). -/
def encodeChar (ch : Byte) : Byte := segTable (charIndex ch)

/-- Bit 7 set in the last byte of a sequence; nothing when there is none (R67: a leading `.` is dropped). -/
def markLast : Segs → Segs
  | [] => []
  | [x] => [x ||| Config.auxBit]
  | x :: y :: rest => x :: markLast (y :: rest)

/-- One character of ENCODE_STRING's second pass (R67). -/
def encodeNext (out : Segs) (ch : Byte) : Segs :=
  if ch = dot then markLast out else out ++ [encodeChar ch]

/-- ENCODE_STRING's second pass (R67). -/
def encodePass (text : Text) : Segs := text.foldl encodeNext []

/-- Right padding with blanks to six entries (R67). -/
def padBlank (out : Segs) : Segs := out ++ List.replicate (Config.nSlots - out.length) blank

/-- ENCODE_STRING: nothing for a text with more than six characters other than `.` (R67, R71). -/
def encodeString (text : Text) : Option Segs :=
  if symbols text > Config.nSlots then none else some (padBlank (encodePass text))

end Sys2Proof.Machine
end

