-- ==== Sys2Proof/Machine/Flags.lean ====
section
/-! DEFINITION. The block has no condition flags (10_state.md R17). Its two status bits are `INITED` (R14) and `BUSY`
(R20), with the sequence position beside the latter (R16). -/

namespace Sys2Proof.Machine

/-- An operation is accepted: `BUSY` is 1 and the sequence position 0 (R16, R20). -/
def State.accept (s : State) : State := { s with busy := true, seqPos := some 0 }

/-- The operation's last event is out: `BUSY` is 0 and there is no sequence position (R16, R20). -/
def State.finish (s : State) : State := { s with busy := false, seqPos := none }

/-- `INITED <- 1` (R100). -/
def State.setInited (s : State) : State := { s with inited := true }

end Sys2Proof.Machine
end

