-- ==== Sys2Proof/Machine/Ops.lean ====
section
/-! DEFINITION. The shared operations over the state: emitting an event, writing the registers, returning a value, and
the reset, the one thing that can cut an operation short (60_exceptions.md R123). The block has no exception and no
return from one (R120, R125, R126), and no memory of its own (20_memory.md R30). -/

namespace Sys2Proof.Machine

/-- `L <- v` (10_state.md R12, R13). -/
def State.setLine (l : Line) (v : Level) (s : State) : State :=
  match l with
  | .clk => { s with clk := v }
  | .dio => { s with dio := v }

/-- `emit e`: the event is appended to the trace, a `SET` updates the line, and the sequence position advances by one
(41_wire_primitives.md R80; R16). A `SET` counts whether or not it changes the level (R86). -/
def State.emit (e : Event) (s : State) : State :=
  let t := match e with
    | .set l v => s.setLine l v
    | .wait _ => s
  { t with trace := s.trace ++ [e], seqPos := s.seqPos.map (· + 1) }

/-- `emit T` for a sequence of events (00_scope.md R9). -/
def State.emitAll : List Event → State → State
  | [], s => s
  | e :: es, s => State.emitAll es (s.emit e)

/-- The level of a line after a sequence of events, `v` before it: that of the last set of the line, if there is one. -/
def levelAfter (l : Line) : List Event → Level → Level
  | [], v => v
  | .set m u :: es, v => levelAfter l es (if m = l then u else v)
  | .wait _ :: es, v => levelAfter l es v

/-- `BRIGHT <- b` (R11). -/
def State.setBright (b : BitVec 3) (s : State) : State := { s with bright := b }

/-- "bind CLK to clk_line, DIO to dio_line": fixed until reset, and both line drivers on from here
(43_host_operations.md R100; D2, D20; entry 24). -/
def State.bindLines (c d : LineId) (s : State) : State :=
  { s with binding := some (c, d), clkOut := true, dioOut := true }

/-- `return v` (R9, R57). -/
def State.deliver (r : Result) (s : State) : State := { s with results := s.results ++ [r] }

/-- A reset: the reset state of 70_reset_and_hazards.md R140, with `BRIGHT`, `CLK`, `DIO` unspecified anew (entry 9).
DESIGN CHOICE (entries 9 and 20): the free values depend on the number of resets alone, so two engines of equal number
(R131) hold the same ones, where the spec leaves each engine's free. The trace, the returned values, what the outside has
presented and other engines' lines are not the block's, and stay (R147; entry 11). Nothing is sent. -/
def State.resetInput (s : State) : State :=
  let n := s.resets + 1
  { inited := false, bright := Config.freeBright n, clk := Config.freeClk n, dio := Config.freeDio n,
    clkOut := false, dioOut := false, binding := none, busy := false, seqPos := none,
    trace := s.trace, results := s.results, inputs := s.inputs, foreignLines := s.foreignLines, resets := n,
    decTexts := s.decTexts }

/-- A reset inside an operation: `s` is the state at its acceptance, `whole` all its events, and the reset falls after the
first `k` of them (R147). The state it falls on has `BUSY = 1` and the sequence position `k` (R16, R20). -/
def State.cutShort (k : Nat) (whole : List Event) (s : State) : State :=
  (State.emitAll (whole.take k) s.accept).resetInput

/-- The events an operation added to the trace. -/
def eventsSince (s t : State) : List Event := t.trace.drop s.trace.length

end Sys2Proof.Machine
end

