-- ==== Sys2Proof/Machine/Wire.lean ====
section
/-! DEFINITION. The wire primitives (41_wire_primitives.md) and the bytes the engine puts on the wire
(30_encoding.md R49 to R51). -/

namespace Sys2Proof.Machine

/-! ## The fixed event sequences -/

/-- `SET(CLK, 0)`. -/
def c0 : Event := .set .clk false

/-- `SET(CLK, 1)`. -/
def c1 : Event := .set .clk true

/-- `SET(DIO, 0)`. -/
def d0 : Event := .set .dio false

/-- `SET(DIO, 1)`. -/
def d1 : Event := .set .dio true

/-- `WAIT(10)`. -/
def wait10 : Event := .wait Config.tHold

/-- `START_T` (R82). -/
def startT : List Event := [c1, wait10, d1, wait10, d0, wait10, c0, wait10]

/-- `STOP_T` (R83): no wait after the last set. -/
def stopT : List Event := [c0, wait10, d0, wait10, c1, wait10, d1]

/-- `BIT_T(b)` (R84). -/
def bitT (b : Level) : List Event := [.set .dio b, wait10, c1, wait10, c0, wait10]

/-- `ACK_T` (R84, R85): `DIO` is neither set nor read. -/
def ackT : List Event := [c0, wait10, c1, wait10, c0, wait10]

/-- `BYTE_T(v)`: bit 0 first, then the acknowledgment pulse (R84; R37). -/
def byteT (v : Byte) : List Event := (List.range 8).flatMap (fun i => bitT (v.getLsbD i)) ++ ackT

/-- `FRAME_T(bs)` (42_command_frames.md R94). -/
def frameT (bs : List Byte) : List Event := startT ++ bs.flatMap byteT ++ stopT

/-! ## The primitives on the state -/

/-- START (R82). -/
def startCond (s : State) : State := s.emitAll startT

/-- STOP (R83). -/
def stopCond (s : State) : State := s.emitAll stopT

/-- WRITE_BYTE (R84). -/
def sendByte (v : Byte) (s : State) : State := s.emitAll (byteT v)

/-- WRITE_BYTE for each byte of a sequence, in its order (R93). -/
def sendBytes (bs : List Byte) (s : State) : State := bs.foldl (fun s b => sendByte b s) s

/-- An operation that only emits: accepted, run to its end, finished (R16, R20, R106). -/
def running (run : State → State) (s : State) : Outcome := .next (run s.accept).finish

/-! ## Meanings -/

/-- START (R82). -/
def execStart (s : State) : Outcome := running startCond s

/-- STOP (R83). -/
def execStop (s : State) : Outcome := running stopCond s

/-- WRITE_BYTE (R84). -/
def execWriteByte (v : Byte) (s : State) : Outcome := running (sendByte v) s

/-- CMD_DATA: the byte 0x40 on the wire (R49; DEDUCED, entry 15). What it selects is the chip's (R4). -/
def execCmdData (s : State) : Outcome := running (sendByte Config.cmdData) s

/-- CMD_ADDR: the byte `0xC0 | pos` on the wire (R50; DEDUCED, entry 15). -/
def execCmdAddr (p : Position) (s : State) : Outcome := running (sendByte (addrByte p)) s

/-- CMD_DISP: the byte `0x88 | b` on the wire (R51; DEDUCED, entry 15). -/
def execCmdDisp (b : BitVec 3) (s : State) : Outcome := running (sendByte (dispByte b)) s

end Sys2Proof.Machine
end

