-- ==== Sys2Proof/Machine/Frames.lean ====
section
/-! DEFINITION. The command frames (42_command_frames.md). -/

namespace Sys2Proof.Machine

/-- DATA_CMD (R90). -/
def dataCmd (s : State) : State := stopCond (sendByte Config.cmdData (startCond s))

/-- DISP_CTRL (R91): reads `BRIGHT`. -/
def dispCtrl (s : State) : State := stopCond (sendByte (dispByte s.bright) (startCond s))

/-- DATA_XFER (R93), for a segment count that R96 admits: the address command and the segment bytes in one transaction. -/
def dataXfer (p : Position) (segs : Segs) (s : State) : State :=
  stopCond (sendBytes (permuted segs) (sendByte (addrByte p) (startCond s)))

/-! ## The frames as traces -/

/-- `DATA_CMD_T` (R90). -/
def dataCmdT : List Event := frameT [Config.cmdData]

/-- `DISP_CTRL_T(b)` (R91). -/
def dispCtrlT (b : BitVec 3) : List Event := frameT [dispByte b]

/-- `DATA_XFER_T(pos, segs)` (R93). -/
def dataXferT (p : Position) (segs : Segs) : List Event := frameT (addrByte p :: permuted segs)

/-- `INIT_T(b)` (R100). -/
def initT (b : BitVec 3) : List Event := [c0, d0] ++ dataCmdT ++ dispCtrlT b

/-- The trace of SET_BRIGHTNESS (R101). -/
def setBrightnessT (b : BitVec 3) : List Event := dataCmdT ++ dispCtrlT b

/-- `WRITE_T` (R102). -/
def writeT (p : Position) (segs : Segs) (b : BitVec 3) : List Event := dataCmdT ++ dataXferT p segs ++ dispCtrlT b

/-! ## Meanings -/

/-- DATA_CMD (R90). -/
def execDataCmd (s : State) : Outcome := running dataCmd s

/-- DISP_CTRL (R91). -/
def execDispCtrl (s : State) : Outcome := running dispCtrl s

end Sys2Proof.Machine
end

