-- ==== Sys2Proof/Machine/HostOps.lean ====
section
/-! DEFINITION. The six engine operations (43_host_operations.md) and the three encoder operations
(40_segment_encoder.md), with the refusal checks of 60_exceptions.md R122 before the first event, in its order. -/

namespace Sys2Proof.Machine

/-! ## The encoder operations: no event, no state but the returned value, `INITED` not read (R68) -/

/-- ENCODE_DIGIT (R65). -/
def execEncodeDigit (value : Int) (s : State) : Outcome := .next (s.deliver (.byte (encodeDigit value)))

/-- ENCODE_CHAR (R66). -/
def execEncodeChar (ch : Byte) (s : State) : Outcome := .next (s.deliver (.byte (encodeChar ch)))

/-- ENCODE_STRING (R67, R71). -/
def execEncodeString (text : Text) (s : State) : Outcome :=
  match encodeString text with
  | some segs => .next (s.deliver (.seq segs))
  | none => .refused .textTooLong

/-! ## The engine operations -/

/-- INIT after its checks, line by line as R100 writes it. -/
def initRun (c d : LineId) (b : BitVec 3) (s : State) : State :=
  let s := s.bindLines c d
  let s := s.emit c0
  let s := s.emit d0
  let s := s.setBright b
  let s := dataCmd s
  let s := dispCtrl s
  s.setInited

/-- INIT (R100; checks 4, 5, 6 of R122). -/
def execInit (c d : Option LineId) (brightness : Int) (s : State) : Outcome :=
  let cl := lineOr Config.clkLine c
  let dl := lineOr Config.dioLine d
  if s.inited then .refused .alreadyInitialised
  else if cl = dl then .refused .sameLine
  else if cl ∈ s.foreignLines ∨ dl ∈ s.foreignLines then .refused .sharedLine
  else running (initRun cl dl (initBrightness brightness)) s

/-- SET_BRIGHTNESS after its check (R101). -/
def setBrightnessRun (b : BitVec 3) (s : State) : State :=
  let s := s.setBright b
  let s := dataCmd s
  let s := dispCtrl s
  s.deliver (.byte (s.bright.setWidth 8))

/-- SET_BRIGHTNESS (R101; check 3 of R122). -/
def execSetBrightness (value : Int) (s : State) : Outcome :=
  if s.inited = false then .refused .notInitialised
  else running (setBrightnessRun (maskBrightness value)) s

/-- WRITE after its checks (R102). -/
def writeRun (segs : Segs) (p : Position) (s : State) : State :=
  let s := dataCmd s
  let s := dataXfer p segs s
  dispCtrl s

/-- WRITE (R102; checks 3 and 7 of R122). -/
def writeOp (segs : Segs) (pos : Int) (s : State) : Outcome :=
  if s.inited = false then .refused .notInitialised
  else if segCountOk segs = false then .refused .badSegmentCount
  else running (writeRun segs (clampPosition pos)) s

/-- SHOW (R103; checks 3 and 8 of R122). -/
def showOp (text : Text) (s : State) : Outcome :=
  if s.inited = false then .refused .notInitialised
  else match encodeString text with
    | none => .refused .textTooLong
    | some segs => writeOp segs 0 s

/-- WRITE (R102). -/
def execWrite (segs : Segs) (pos : Int) (s : State) : Outcome := writeOp segs pos s

/-- SHOW (R103): the colon flag has no effect. -/
def execShowText (text : Text) (_colon : Bool) (s : State) : Outcome := showOp text s

/-- SHOW_HEX (R104). -/
def execShowHex (value : Int) (s : State) : Outcome := showOp (hexFmt (hexValue value)) s

/-- SHOW_NUMBER (R105). -/
def execShowNumber (value : Int) (s : State) : Outcome := showOp (decFmt s.decTexts value) s

end Sys2Proof.Machine
end

