-- ==== Sys2Proof/Machine/Dispatch.lean ====
section
/-! DEFINITION. One arm for each operation. -/

namespace Sys2Proof.Machine

/-- The meaning of an operation, whoever issues it. -/
def exec (i : Instr) (s : State) : Host.Outcome State Fault Refusal :=
  match i with
  | .cmdData => Sys2Proof.Machine.execCmdData s
  | .cmdAddr pos => Sys2Proof.Machine.execCmdAddr pos s
  | .cmdDisp b => Sys2Proof.Machine.execCmdDisp b s
  | .init c d v => Sys2Proof.Machine.execInit c d v s
  | .setBrightness v => Sys2Proof.Machine.execSetBrightness v s
  | .write segs pos => Sys2Proof.Machine.execWrite segs pos s
  | .showText text colon => Sys2Proof.Machine.execShowText text colon s
  | .showHex v => Sys2Proof.Machine.execShowHex v s
  | .showNumber v => Sys2Proof.Machine.execShowNumber v s
  | .encodeDigit v => Sys2Proof.Machine.execEncodeDigit v s
  | .encodeChar ch => Sys2Proof.Machine.execEncodeChar ch s
  | .encodeString text => Sys2Proof.Machine.execEncodeString text s
  | .start => Sys2Proof.Machine.execStart s
  | .stop => Sys2Proof.Machine.execStop s
  | .writeByte v => Sys2Proof.Machine.execWriteByte v s
  | .dataCmd => Sys2Proof.Machine.execDataCmd s
  | .dispCtrl => Sys2Proof.Machine.execDispCtrl s

end Sys2Proof.Machine
end

