-- ==== Sys2Proof/Machine/Port.lean ====
section
/-! DEFINITION. The request port and the reset input (92_eei_decisions.md D2, D3, D17; 60_exceptions.md R122;
70_reset_and_hazards.md R140, R145, R147). -/

namespace Sys2Proof.Machine

/-- The operations the host port refuses: the internal sequences (R122 order 2) and the wire command bytes, which are no
host operation either (entry 16). -/
def engineOnly : Instr → Bool
  | .cmdData => true
  | .cmdAddr _ => true
  | .cmdDisp _ => true
  | .init _ _ _ => false
  | .setBrightness _ => false
  | .write _ _ => false
  | .showText _ _ => false
  | .showHex _ => false
  | .showNumber _ => false
  | .encodeDigit _ => false
  | .encodeChar _ => false
  | .encodeString _ => false
  | .start => true
  | .stop => true
  | .writeByte _ => true
  | .dataCmd => true
  | .dispCtrl => true

/-- The refusal for bytes that are no operation (R122 order 1; entry 29). -/
def refusalOf : DecodeError → Refusal
  | .reservedOp => .reservedOp
  | .noSuchOperation => .noSuchOperation
  | .truncated => .truncatedRequest

/-- What a request asks for: the operation its bytes are, unless the host may not issue it. Bytes after the operation's
own are not read (entry 2). DESIGN CHOICE (entry 29): the model's own two reasons come before the checks 2 to 8 of R122, so
a request of a host that ends too early is `truncatedRequest` whatever else could be said of it. -/
def admitted (who : Issuer) (bytes : List Byte) : Except Refusal Instr :=
  match decode bytes with
  | .error e => .error (refusalOf e)
  | .ok (i, _) => if who = .host ∧ engineOnly i = true then .error .notHostIssuable else .ok i

/-- The end of an operation that ran from `s` to `t`: `t`, unless a reset fell inside it (R147). -/
def settled (cut : Option Nat) (s t : State) : State :=
  match cut with
  | none => t
  | some k => s.cutShort k (eventsSince s t)

/-- An admitted operation: run to its end or to the reset that cuts it. -/
def runAdmitted (i : Instr) (cut : Option Nat) (s : State) : Outcome :=
  match exec i s with
  | .next t => .next (settled cut s t)
  | .fault f => .fault f
  | .refused r => .refused r

/-- A request, taken from the port: refused, or run. -/
def runRequest (who : Issuer) (bytes : List Byte) (cut : Option Nat) (s : State) : Outcome :=
  match admitted who bytes with
  | .error r => .refused r
  | .ok i => runAdmitted i cut s

/-- The next thing the outside has presented. With nothing presented the engine is idle (60_exceptions.md R133; entry
17). A request is held while `BUSY = 1` (R145; entry 18). A reset takes effect at once (R140). -/
def takeInput (s : State) : Outcome :=
  match s.inputs with
  | [] => .next s
  | .reset :: rest => .next { s with inputs := rest }.resetInput
  | .request who bytes cut :: rest =>
    if s.busy then .next s else runRequest who bytes cut { s with inputs := rest }

/-- Who issues the operation a table word is: the engine for what the host may not issue (entry 16). -/
def wordIssuer (nbits w : Nat) : Issuer :=
  match decodeTableWord nbits w with
  | some i => if engineOnly i then .engine else .host
  | none => .host

/-- The request that carries a table word. -/
def wordRequest (nbits w : Nat) : Input := .request (wordIssuer nbits w) (wordBytes nbits w) none

end Sys2Proof.Machine
end

