-- ==== Sys2Proof/Machine/Step.lean ====
section
/-! DEFINITION. One step: the next thing the outside has presented is taken and run to its end
(43_host_operations.md R106; entry 1). -/

namespace Sys2Proof.Machine

/-- One step. -/
def step : State → Host.Outcome State Fault Refusal := takeInput

/-- `s` with the operation a table word is presented first on the request port (entries 16, 25). -/
def State.withFetchWord (s : State) (nbits w : Nat) : State := { s with inputs := wordRequest nbits w :: s.inputs }

end Sys2Proof.Machine
end

