-- ==== Sys2Proof/Machine/Reference.lean ====
section
/-! DEFINITION. The reference formatters of 92_eei_decisions.md D14 and D15, which the spec defines for its test vectors
only (V81 to V86, V110). No meaning of an operation uses anything of this file (entries 6 and 7). -/

namespace Sys2Proof.Machine

/-- The digits of a number in a base, most significant first, one digit for zero; `fuel` bounds their number. -/
def digits (base : Nat) : Nat → Nat → List Nat
  | 0, _ => []
  | fuel + 1, n => if n < base then [n] else digits base fuel (n / base) ++ [n % base]

/-- The character of a digit, in lower case. -/
def digitCode (d : Nat) : Byte := if d < 10 then BitVec.ofNat 8 (0x30 + d) else BitVec.ofNat 8 (0x61 + (d - 10))

/-- Spaces on the left up to six characters; nothing is cut. -/
def padLeft (t : Text) : Text := List.replicate (6 - t.length) 0x20#8 ++ t

/-- `HEX_FMT_REF` (D14). -/
def hexFmtRef (v : BitVec 16) : Text := padLeft ((digits 16 4 v.toNat).map digitCode)

/-- `DEC_FMT_REF` (D15). -/
def decFmtRef (v : Int) : Text :=
  padLeft ((if v < 0 then [0x2D#8] else []) ++ (digits 10 (v.natAbs + 1) v.natAbs).map digitCode)

end Sys2Proof.Machine
end

