-- ==== Sys2Proof/Machine/Observe.lean ====
section
/-! DEFINITION. The non-normative observer of the wire (92_eei_decisions.md D22; 95_test_vectors.md section 2) and a
picture of the chip's six slots. PRESUMED (entry 19): the sampling rule is general knowledge, not the source's (G4). No
meaning of an operation uses anything of this file. -/

namespace Sys2Proof.Machine

/-- A frame being read: clock pulses of the current byte, its bits so far, the bytes before it. -/
structure OpenFrame where
  clocks : Nat
  bits : List Level
  bytes : List Byte
  deriving DecidableEq, Repr

/-- The observer: the levels it has seen (none yet at first), the open frame, the frames it has read. -/
structure Observer where
  clk : Option Level
  dio : Option Level
  frame : Option OpenFrame
  done : List (List Byte)
  deriving DecidableEq, Repr

/-- The byte whose bits were sent in this order, bit 0 first. -/
def byteOfBits (bits : List Level) : Byte := BitVec.ofNat 8 (bits.foldr (fun b n => 2 * n + b.toNat) 0)

/-- A rising clock edge inside a frame: a bit on pulses 1 to 8, a byte after the eighth, the ninth skipped (step 2). -/
def OpenFrame.pulse (level : Level) (f : OpenFrame) : OpenFrame :=
  if f.clocks = 8 then { f with clocks := 0 }
  else if f.clocks = 7 then { clocks := 8, bits := [], bytes := f.bytes ++ [byteOfBits (f.bits ++ [level])] }
  else { f with clocks := f.clocks + 1, bits := f.bits ++ [level] }

/-- What the observer makes of an event (steps 1 to 3). -/
def Observer.see (o : Observer) : Event → Observer
  | .wait _ => o
  | .set .clk v =>
    let seen := { o with clk := some v }
    if o.clk = some false ∧ v = true then { seen with frame := o.frame.map (OpenFrame.pulse (o.dio.getD false)) }
    else seen
  | .set .dio v =>
    let seen := { o with dio := some v }
    if o.clk = some true ∧ o.dio = some true ∧ v = false then { seen with frame := some ⟨0, [], []⟩ }
    else if o.clk = some true ∧ o.dio = some false ∧ v = true then
      match o.frame with
      | some f => { seen with frame := none, done := o.done ++ [f.bytes] }
      | none => seen
    else seen

/-- The observer after a sequence of events. -/
def Observer.seeAll (o : Observer) (es : List Event) : Observer := es.foldl Observer.see o

/-- The observer at first: both levels unknown, no frame. -/
def Observer.fresh : Observer := ⟨none, none, none, []⟩

/-- `OBSERVE(trace)`: the closed frames of a trace. -/
def observe (trace : List Event) : List (List Byte) := (Observer.fresh.seeAll trace).done

/-- A picture of the chip's six slots: a byte, or nothing known of it (D22, U1). -/
abbrev Slots := List (Option Byte)

/-- Nothing known of any slot. -/
def Slots.unknown : Slots := List.replicate 6 none

/-- What a frame makes of the picture: an address command whose bytes fill exactly the slots from its position on puts
them there, one slot for each byte (20_memory.md R35); with any other number of bytes nothing is known (U1).
DESIGN CHOICE (entry 19; 30_encoding.md R53, N20: the spec gives such a frame no meaning): a frame whose first byte is none
of the 15 command bytes, such as 0x45 or 0x08, or that has no byte at all, leaves every slot as known as it was. While only
the host issues operations, such frames arise only where a reset cuts a frame and a later INIT closes it (R147). -/
def Slots.afterFrame (slots : Slots) : List Byte → Slots
  | [] => slots
  | a :: data =>
    match addrPos a with
    | some p =>
      if a &&& 0xF8#8 = Config.cmdAddrBase then
        if p.val + data.length = 6 then slots.take p.val ++ data.map some else Slots.unknown
      else slots
    | none => slots

/-- The picture after a trace. DESIGN CHOICE (entry 19; N13, R147: the source does not say what the chip does with a partial
frame): while a data transaction that a reset cut stands open, the picture keeps the bytes it had, as known; and when a
later INIT's `SET(DIO,1)` closes it, its whole bytes count as a transaction like any other. -/
def slotsAfter (trace : List Event) : Slots := (observe trace).foldl Slots.afterFrame Slots.unknown

end Sys2Proof.Machine
end

