-- ==== Sys2Proof/Machine/Rig.lean ====
section
/-! DEFINITION. Several engines side by side (60_exceptions.md R131, R122 order 6, R152; entry 20): each has its own
state, and they share nothing but the table. The one thing an engine is told of the others is which lines they own. -/

namespace Sys2Proof.Machine

/-- Several engines. -/
abbrev Rig := List State

/-- The lines an engine owns: those INIT bound (R100, D20). -/
def State.ownLines (s : State) : List LineId :=
  match s.binding with
  | none => []
  | some (c, d) => [c, d]

/-- The lines the engines other than the k-th own. -/
def Rig.othersLines (rig : Rig) (k : Nat) : List LineId := (rig.eraseIdx k).flatMap State.ownLines

/-- One step of the k-th engine; nothing when there is no such engine, or when it stops. -/
def Rig.stepAt (rig : Rig) (k : Nat) : Option Rig :=
  match rig[k]? with
  | none => none
  | some s =>
    match step { s with foreignLines := rig.othersLines k } with
    | .next t => some (rig.set k t)
    | .fault _ => none
    | .refused _ => none

end Sys2Proof.Machine
end

