-- ==== Sys2Proof/Safety.lean ====
section
/-! DEFINITION. What a safe run is, in the terms the statements use: the invariants of the engine, the hold rule between
level changes, the shape of what goes over the wire. -/

namespace Sys2Proof.Machine

/-! ## Inputs a host really presents -/

/-- The outside presents only what the host port carries: no operation issued by the engine (30_encoding.md R56). -/
def Input.fromHost : Input → Bool
  | .request .host _ _ => true
  | .request .engine _ _ => false
  | .reset => true

/-- No reset falls inside the operation (R147). -/
def Input.uncut : Input → Bool
  | .request _ _ none => true
  | .request _ _ (some _) => false
  | .reset => true

/-! ## Events -/

/-- A `SET` event. -/
def Event.isSet : Event → Bool
  | .set _ _ => true
  | .wait _ => false

/-- The number of sets (70_reset_and_hazards.md R150). -/
def countSets (es : List Event) : Nat := (es.filter Event.isSet).length

/-- The number of waits (R150). -/
def countWaits (es : List Event) : Nat := (es.filter (fun e => !e.isSet)).length

/-- The least time a sequence takes, in microseconds: a wait is a lower bound, a set takes none (R150, R153). -/
def minTime (es : List Event) : Nat :=
  (es.map fun e => match e with
    | .set _ _ => 0
    | .wait n => n).sum

/-- Two sets that both change a level have a wait between them (41_wire_primitives.md R88). `fresh`: a level has changed
and no wait has come since. -/
def heldApart (clk dio fresh : Bool) : List Event → Bool
  | [] => true
  | .wait _ :: es => heldApart clk dio false es
  | .set .clk v :: es => if v = clk then heldApart clk dio fresh es else !fresh && heldApart v dio true es
  | .set .dio v :: es => if v = dio then heldApart clk dio fresh es else !fresh && heldApart clk v true es

/-- The events between two resets: none, or INIT's two initial drives and the `SET(CLK,1)` after them, which nothing holds
apart (R88), and then level changes held apart, over all operations; or a part of those three, when a reset cuts INIT there
(70_reset_and_hazards.md R147). -/
def HeldRun (es : List Event) : Prop :=
  es <+: [.set .clk false, .set .dio false, .set .clk true] ∨
    ∃ rest, es = [.set .clk false, .set .dio false, .set .clk true] ++ rest ∧ heldApart true false true rest = true

/-- A trace made of at most `n` runs, each of which holds level changes apart. -/
def HeldThroughout (n : Nat) (trace : List Event) : Prop :=
  ∃ runs : List (List Event), runs.length ≤ n ∧ trace = runs.flatten ∧ ∀ run ∈ runs, HeldRun run

/-- What has come since an INIT's first three sets holds level changes apart and leaves both lines high, so that the next
start condition changes no level at once (R88). -/
structure HeldSinceInit (rest : List Event) : Prop where
  apart : heldApart true false true rest = true
  clkHigh : levelAfter .clk rest true = true
  dioHigh : levelAfter .dio rest false = true

/-- `DIO` is set only while `CLK` is 0 (R84, corner case (b)). -/
def dioSetWhileLow (clk : Bool) : List Event → Bool
  | [] => true
  | .wait _ :: es => dioSetWhileLow clk es
  | .set .clk v :: es => dioSetWhileLow v es
  | .set .dio _ :: es => !clk && dioSetWhileLow clk es

/-! ## The wire -/

/-- A data-command frame, as the observer reads it. -/
def isDataFrame (f : List Byte) : Bool := f == [Config.cmdData]

/-- A display-control frame: one byte of 0x88 to 0x8F. -/
def isDispFrame : List Byte → Bool
  | [a] => a &&& 0xF8#8 == 0x88#8
  | _ => false

/-- An address-command frame: a byte of 0xC0 to 0xC5, then six or three segment bytes. -/
def isAddrFrame : List Byte → Bool
  | a :: data => (a &&& 0xF8#8 == 0xC0#8) && (addrPos a).isSome && segCountOk data
  | [] => false

/-- Frames in the order the chip requires: a data command before each address command, a display control after it and
after each data command that stands alone (R95). -/
def framesInOrder : List (List Byte) → Bool
  | [] => true
  | [_] => false
  | f :: g :: rest =>
    isDataFrame f &&
      ((isDispFrame g && framesInOrder rest) ||
        match rest with
        | [] => false
        | h :: rest' => isAddrFrame g && isDispFrame h && framesInOrder rest')

/-- The bytes that may stand first in a transaction (30_encoding.md R53). -/
def firstBytes : List Byte :=
  [0x40#8, 0xC0#8, 0xC1#8, 0xC2#8, 0xC3#8, 0xC4#8, 0xC5#8,
   0x88#8, 0x89#8, 0x8A#8, 0x8B#8, 0x8C#8, 0x8D#8, 0x8E#8, 0x8F#8]

/-! ## What the rules say an operation answers -/

/-- The reason a host's operation is refused for, by the table of 60_exceptions.md R122, orders 2 to 8: the first
condition that holds. DESIGN CHOICE: a line identifier left out stands for the engine's own output (entry 3), and the wire
command bytes are no host operation (entry 16). -/
def refusalByTable (i : Instr) (s : State) : Option Refusal :=
  match i with
  | .cmdData => some .notHostIssuable
  | .cmdAddr _ => some .notHostIssuable
  | .cmdDisp _ => some .notHostIssuable
  | .start => some .notHostIssuable
  | .stop => some .notHostIssuable
  | .writeByte _ => some .notHostIssuable
  | .dataCmd => some .notHostIssuable
  | .dispCtrl => some .notHostIssuable
  | .init c d _ =>
    if s.inited = true then some .alreadyInitialised
    else if c.getD Config.clkLine = d.getD Config.dioLine then some .sameLine
    else if c.getD Config.clkLine ∈ s.foreignLines ∨ d.getD Config.dioLine ∈ s.foreignLines then some .sharedLine
    else none
  | .setBrightness _ => if s.inited = false then some .notInitialised else none
  | .write segs _ =>
    if s.inited = false then some .notInitialised
    else if segs.length = 6 ∨ segs.length = 3 then none
    else some .badSegmentCount
  | .showText text _ => refusalOfText s text
  | .showHex v => refusalOfText s (hexFmt (hexValue v))
  | .showNumber v => refusalOfText s (decFmt s.decTexts v)
  | .encodeDigit _ => none
  | .encodeChar _ => none
  | .encodeString text => if symbols text > 6 then some .textTooLong else none
where
  /-- The two checks of SHOW, SHOW_HEX and SHOW_NUMBER. -/
  refusalOfText (s : State) (text : Text) : Option Refusal :=
    if s.inited = false then some .notInitialised
    else if symbols text > 6 then some .textTooLong
    else none

/-- The characters of a text that are not `.`, each with whether a `.` stands right after it: what ENCODE_STRING's
result is said in terms of (40_segment_encoder.md R67, "Entry `k` for `k < d`"). -/
def cells : Text → List (Byte × Bool)
  | [] => []
  | c :: rest => if c = dot then cells rest else (c, rest.head? == some dot) :: cells rest

/-- The segment byte of a character, with bit 7 when a `.` follows it. -/
def cellByte (cell : Byte × Bool) : Byte := if cell.2 then encodeChar cell.1 ||| 0x80#8 else encodeChar cell.1

/-! ## Invariants -/

/-- What holds of an engine between two steps when only the host issues operations: no operation is in progress; once
initialised, both lines are high (10_state.md R12, R13, R24), driven (DEDUCED, entry 24) and bound to two different lines
that no other engine owns (D20, R122); before that, the drivers are off and nothing is bound (R22, R140). -/
structure State.Sound (s : State) : Prop where
  fromHost : s.inputs.all Input.fromHost = true
  idle : s.busy = false
  noPos : s.seqPos = none
  high : s.inited = true → s.clk = true ∧ s.dio = true
  driven : s.clkOut = s.inited ∧ s.dioOut = s.inited
  bound : s.inited = true →
    ∃ c d, s.binding = some (c, d) ∧ c ≠ d ∧ c ∉ s.foreignLines ∧ d ∉ s.foreignLines
  unbound : s.inited = false → s.binding = none

/-- What the observer has read of the wire so far is whole frames in the order the chip requires, and it stands outside
a frame, with both lines high once the engine is initialised. -/
structure State.WireSound (s : State) : Prop where
  fromHost : s.inputs.all Input.fromHost = true
  uncut : s.inputs.all Input.uncut = true
  closed : (Observer.fresh.seeAll s.trace).frame = none
  high : s.inited = true →
    (Observer.fresh.seeAll s.trace).clk = some true ∧ (Observer.fresh.seeAll s.trace).dio = some true
  ordered : framesInOrder (observe s.trace) = true

/-- Level changes are held apart in the whole trace, which has no more finished runs than there have been resets: only a
reset ends a run, and INIT's first three sets are excepted once in each (41_wire_primitives.md R88). While the engine is
initialised, one run more is open. -/
structure State.Held (s : State) : Prop where
  fromHost : s.inputs.all Input.fromHost = true
  before : s.inited = false → HeldThroughout s.resets s.trace
  current : s.inited = true → ∃ earlier rest,
    s.trace = earlier ++ ([.set .clk false, .set .dio false, .set .clk true] ++ rest) ∧
    HeldThroughout s.resets earlier ∧ HeldSinceInit rest

/-- No two engines of a rig own one line, and no engine owns one line twice (70_reset_and_hazards.md R152). -/
def Rig.Exclusive (rig : Rig) : Prop := (rig.flatMap State.ownLines).Nodup

end Sys2Proof.Machine
end

