-- ==== Sys2Proof/Certificates/Slice0/Obligations.lean ====
section
/-! DEFINITION. The statements for the provers. -/

open Sys2Proof Sys2Proof.Machine

/-! ## Encoding -/

/-- Decoding the encoding of a well-formed operation gives it back, with every operand, whatever bytes follow. -/
def Obligations.DecodeUndoesEncode : Prop :=
  ∀ (i : Instr) (rest : List Byte), i.wf = true → decode (encode i ++ rest) = .ok (i, rest)

/-- Bytes that decode are the encoding of the operation they decode to, which is well formed: no operation has two
encodings. -/
def Obligations.EncodeUndoesDecode : Prop :=
  ∀ (bs : List Byte) (i : Instr) (rest : List Byte), decode bs = .ok (i, rest) → i.wf = true ∧ encode i ++ rest = bs

/-- Words written out from the encodings of the spec: the three wire command bytes (R49 to R51) and op-select codes
(R56) with operands. The operand layout is the model's choice (entry 2). -/
def Obligations.WordsDecodeAsTheTablesSay : Prop :=
  decode [0b01000000#8] = .ok (.cmdData, []) ∧
  decode [0b11000101#8] = .ok (.cmdAddr 5, []) ∧
  decode [0b10001011#8] = .ok (.cmdDisp 3#3, []) ∧
  decode [0x00#8, 0x0A#8, 0x0B#8, 0x07#8] = .ok (.init (some 10) (some 11) 7, []) ∧
  decode [0x01#8, 0x0A#8] = .ok (.setBrightness 10, []) ∧
  decode [0x02#8, 0x3F#8, 0x06#8, 0x5B#8, 0x4F#8, 0x66#8, 0x6D#8, 0x00#8] =
    .ok (.write [0x3F#8, 0x06#8, 0x5B#8, 0x4F#8, 0x66#8, 0x6D#8] 0, []) ∧
  decode [0x03#8, 0x05#8, 0x31#8, 0x32#8, 0x2E#8, 0x33#8, 0x34#8, 0x00#8] =
    .ok (.showText [0x31#8, 0x32#8, 0x2E#8, 0x33#8, 0x34#8] false, []) ∧
  decode [0x06#8, 0x1A#8] = .ok (.encodeDigit 26, []) ∧
  decode [0x08#8, 0x01#8, 0x2E#8] = .ok (.encodeString [0x2E#8], []) ∧
  decode [0x0B#8, 0xA5#8] = .ok (.writeByte 0xA5#8, [])

/-- First bytes that the engine never sends (R53) and that are no op-select code decode to nothing, except 0x12, which is
never sent either and which the model takes for its counted form of WRITE (the model's choice, entry 2). That such bytes
are `noSuchOperation` is the model's choice (entry 29), and so it is for 0xC6 and 0xC7, which fit CMD_ADDR's mask
(entry 28). -/
def Obligations.NeverSentBytesDecodeToNothing : Prop :=
  ∀ (b : Byte) (rest : List Byte), b ∉ firstBytes → 0x10 ≤ b.toNat → b ≠ 0x12#8 →
    decode (b :: rest) = .error .noSuchOperation

/-! ## The step -/

/-- A step runs the decoded operation: with no operation in progress, a request that no reset cuts, whose bytes decode
to `i`, which its issuer may issue, is `exec i` once it is taken from the port. -/
def Obligations.StepRunsTheDecodedOperation : Prop :=
  ∀ (s : State) (who : Issuer) (bytes junk : List Byte) (rest : List Input) (i : Instr),
    s.busy = false → s.inputs = .request who bytes none :: rest → decode bytes = .ok (i, junk) →
    (who = .host → engineOnly i = false) → step s = exec i { s with inputs := rest }

/-- Whatever the open parameters of the host port are, `TEXT_MAX` and `NUM_BITS` (R8), what the port carries a step runs: the
host's request for it, with no operation in progress, is `exec` of that operation. And no size is shut out: each text, and
each integer, is carried by some port, a signed one for a number below 0. How a request is laid out is the model's choice
(entry 2). -/
def Obligations.WhateverThePortCarriesRuns : Prop :=
  (∀ (port : HostPort) (i : Instr) (s : State) (junk : List Byte) (rest : List Input),
    port.carries i = true → engineOnly i = false → s.busy = false →
    s.inputs = .request .host (encode i ++ junk) none :: rest → step s = exec i { s with inputs := rest }) ∧
  (∀ (text : Text) (colon : Bool) (bits : Nat) (signed : Bool),
    let port : HostPort := ⟨some text.length, bits, signed⟩
    port.carries (.showText text colon) = true ∧ port.carries (.encodeString text) = true) ∧
  (∀ (v : Int) (longest : Option Nat), ∃ bits, (HostPort.mk longest bits true).carries (.showNumber v) = true ∧
    (0 ≤ v → (HostPort.mk longest bits false).carries (.showNumber v) = true))

/-- R145 ("While `BUSY = 1` the host port takes no operation"): a request made while busy waits. With nothing presented
the engine is idle (the model's choice, entry 17). -/
def Obligations.BusyHoldsRequests : Prop :=
  (∀ (s : State) (who : Issuer) (bytes : List Byte) (cut : Option Nat) (rest : List Input),
    s.busy = true → s.inputs = .request who bytes cut :: rest → step s = .next s) ∧
  (∀ s : State, s.inputs = [] → step s = .next s)

/-- The refusals of R122, for a host's request that is a well-formed operation or a reserved code: codes 0xE and 0xF are
`reservedOp`; any other is refused exactly when a condition of the table holds, for the first that holds, and otherwise
runs. In INIT's rows a line identifier left out stands for the engine's own output, 256 or 257 (the model's choice, entry
3). That the three wire command bytes are `notHostIssuable` is the model's choice and not in the table (entry 16); bytes that
are no operation stand outside (entry 29; see RequestsThatAreNoOperation). The layout of a request is the model's (entry
2). -/
def Obligations.RefusalsFollowTheTable : Prop :=
  (∀ (s : State) (b : Byte) (bytes : List Byte) (cut : Option Nat) (rest : List Input),
    s.busy = false → s.inputs = .request .host (b :: bytes) cut :: rest → b = 0x0E#8 ∨ b = 0x0F#8 →
    step s = .refused .reservedOp) ∧
  (∀ (s : State) (i : Instr) (junk : List Byte) (cut : Option Nat) (rest : List Input),
    s.busy = false → s.inputs = .request .host (encode i ++ junk) cut :: rest → i.wf = true →
    match refusalByTable i s with
    | some r => step s = .refused r
    | none => ∃ t, step s = .next t)

/-- The model's own two refusals (the model's choice, entry 29), whoever asks: bytes that are the form of no operation, and
operand bytes that end too early. They come before the checks 2 to 8 of R122: a WRITE_BYTE with no operand and a
SET_BRIGHTNESS cut short are `truncatedRequest` for the host, initialised or not. -/
def Obligations.RequestsThatAreNoOperation : Prop :=
  (∀ (s : State) (who : Issuer) (bytes : List Byte) (cut : Option Nat) (rest : List Input),
    s.busy = false → s.inputs = .request who bytes cut :: rest →
    (decode bytes = .error .noSuchOperation → step s = .refused .noSuchOperation) ∧
    (decode bytes = .error .truncated → step s = .refused .truncatedRequest)) ∧
  (∀ (s : State) (bytes : List Byte) (cut : Option Nat) (rest : List Input),
    s.busy = false → s.inputs = .request .host bytes cut :: rest → bytes = [] ∨ bytes = [0x0B#8] ∨ bytes = [0x01#8] →
    step s = .refused .truncatedRequest) ∧
  (∀ (s : State) (b : Byte) (bytes : List Byte) (cut : Option Nat) (rest : List Input),
    s.busy = false → s.inputs = .request .host (b :: bytes) cut :: rest → b ∉ firstBytes → 0x10 ≤ b.toNat → b ≠ 0x12#8 →
    step s = .refused .noSuchOperation)

/-- After its checks an operation completes: whoever issues it, `exec` refuses only for a reason of the table, and
otherwise answers a next state; it never faults. In INIT's rows a line identifier left out stands for the engine's own
output, 256 or 257 (the model's choice, entry 3); that the operations the host may not issue run when the engine issues
them is the model's choice too (entry 16). -/
def Obligations.NothingFailsAfterTheChecks : Prop :=
  ∀ (i : Instr) (s : State),
    match refusalByTable i s with
    | none => ∃ t, exec i s = .next t
    | some .notHostIssuable => ∃ t, exec i s = .next t
    | some r => exec i s = .refused r

/-- A step answers a next state or refuses, and nothing else (R120: there is no exception to raise); and it refuses only a
request that is presented first while the engine is idle, for one of the eight reasons of R122 or the model's own two
(entry 29). -/
def Obligations.EveryStepGoesOnOrRefusesARequest : Prop :=
  ∀ s : State, (∃ t, step s = .next t) ∨
    ∃ r, step s = .refused r ∧ s.busy = false ∧ (∃ who bytes cut rest, s.inputs = .request who bytes cut :: rest) ∧
      r ∈ [Refusal.reservedOp, .notHostIssuable, .notInitialised, .alreadyInitialised, .sameLine, .sharedLine,
        .badSegmentCount, .textTooLong, .noSuchOperation, .truncatedRequest]

/-! ## Reset -/

/-- What reset leaves: the values R22 and R140 give, and the model's own (entry 10). -/
def Obligations.ResetStateAsStated : Prop :=
  State.reset.inited = false ∧ State.reset.busy = false ∧ State.reset.seqPos = none ∧ State.reset.trace = [] ∧
  State.reset.clkOut = false ∧ State.reset.dioOut = false ∧ State.reset.binding = none ∧
  State.reset.results = [] ∧ State.reset.inputs = [] ∧ State.reset.foreignLines = []

/-- The reset input: `INITED = 0`, `BUSY = 0`, no operation in progress, both drivers off, nothing sent (R140), and no line
bound (D20: the binding is fixed until reset); of `BRIGHT` and the levels nothing is said. What has been returned, other
engines' lines and what else is presented stay (the model's choice, entry 11), and so does the parameter `DEC_FMT`
(entry 7). -/
def Obligations.ResetInputAsStated : Prop :=
  ∀ (s : State) (rest : List Input), s.inputs = .reset :: rest →
    ∃ t, step s = .next t ∧ t.inited = false ∧ t.busy = false ∧ t.seqPos = none ∧ t.clkOut = false ∧
      t.dioOut = false ∧ t.binding = none ∧ t.trace = s.trace ∧
      t.results = s.results ∧ t.foreignLines = s.foreignLines ∧ t.inputs = rest ∧ t.decTexts = s.decTexts

/-- A reset inside an operation: whatever number of its events it falls after, the trace ends with those events, and the
block is in the reset state; INIT may then be issued again, here with both line identifiers left out (the model's choice,
entry 3). Nothing is returned, and other engines' lines and what else is presented stay (the model's choice, entry 11), and
so does the parameter `DEC_FMT` (entry 7). -/
def Obligations.ResetCutsAnOperation : Prop :=
  ∀ (s u : State) (who : Issuer) (bytes junk : List Byte) (k : Nat) (rest : List Input) (i : Instr) (es : List Event),
    s.busy = false → s.inputs = .request who bytes (some k) :: rest → decode bytes = .ok (i, junk) →
    (who = .host → engineOnly i = false) → exec i { s with inputs := rest } = .next u → u.trace = s.trace ++ es →
    ∃ t, step s = .next t ∧ t.trace = s.trace ++ es.take k ∧ t.inited = false ∧ t.busy = false ∧ t.seqPos = none ∧
      t.clkOut = false ∧ t.dioOut = false ∧ t.binding = none ∧
      t.results = s.results ∧ t.foreignLines = s.foreignLines ∧ t.inputs = rest ∧ t.decTexts = s.decTexts ∧
      (∀ v, s.foreignLines = [] → ∃ t', exec (.init none none v) t = .next t')

/-- Inside an operation `BUSY` is 1 and the sequence position counts the events; at its end both are gone. -/
def Obligations.SequencePositionCountsEvents : Prop :=
  ∀ (es : List Event) (s : State) (k : Nat), k ≤ es.length →
    (State.emitAll (es.take k) s.accept).busy = true ∧
    (State.emitAll (es.take k) s.accept).seqPos = some k ∧
    (State.emitAll es s.accept).finish.busy = false ∧ (State.emitAll es s.accept).finish.seqPos = none

/-! ## Events and primitives -/

/-- `SET(L, v)` appends itself to the trace, changed level or not, and makes the level of `L` `v`, the other line's level
staying; `WAIT(n)` appends itself and changes no level. -/
def Obligations.EventsActOnLinesAndTrace : Prop :=
  ∀ (s : State) (v : Level) (n : Nat),
    s.emit (.set .clk v) = { s with
      clk := v, trace := s.trace ++ [.set .clk v], seqPos := s.seqPos.map (· + 1) } ∧
    s.emit (.set .dio v) = { s with
      dio := v, trace := s.trace ++ [.set .dio v], seqPos := s.seqPos.map (· + 1) } ∧
    s.emit (.wait n) = { s with trace := s.trace ++ [.wait n], seqPos := s.seqPos.map (· + 1) }

/-- START, event by event, from any levels; every other part of the state but `BUSY` and the position, which end an
operation at 0 and none, is unchanged. -/
def Obligations.StartCondition : Prop :=
  ∀ s : State, exec .start s = .next { s with
    clk := false, dio := false, busy := false, seqPos := none,
    trace := s.trace ++ [.set .clk true, .wait 10, .set .dio true, .wait 10, .set .dio false, .wait 10,
      .set .clk false, .wait 10] }

/-- STOP, event by event, from any levels: no wait after the last set. -/
def Obligations.StopCondition : Prop :=
  ∀ s : State, exec .stop s = .next { s with
    clk := true, dio := true, busy := false, seqPos := none,
    trace := s.trace ++ [.set .clk false, .wait 10, .set .dio false, .wait 10, .set .clk true, .wait 10,
      .set .dio true] }

/-- WRITE_BYTE, event by event, least significant bit first, then the acknowledgment pulse; entered with `CLK = 0` it
sets `DIO` only while `CLK` is 0. -/
def Obligations.WriteByteBitByBit : Prop :=
  ∀ (v : Byte) (s : State),
    let bit := fun k : Nat => [Event.set .dio (v.getLsbD k), .wait 10, .set .clk true, .wait 10, .set .clk false, .wait 10]
    let ack := [Event.set .clk false, .wait 10, .set .clk true, .wait 10, .set .clk false, .wait 10]
    let es := bit 0 ++ bit 1 ++ bit 2 ++ bit 3 ++ bit 4 ++ bit 5 ++ bit 6 ++ bit 7 ++ ack
    exec (.writeByte v) s = .next { s with
      clk := false, dio := v.getLsbD 7, busy := false, seqPos := none, trace := s.trace ++ es } ∧
    dioSetWhileLow false es = true

/-- Levels on exit, for any levels on entry. -/
def Obligations.LevelsOnExit : Prop :=
  ∀ (s : State) (v : Byte),
    (∃ t, exec .start s = .next t ∧ t.clk = false ∧ t.dio = false) ∧
    (∃ t, exec (.writeByte v) s = .next t ∧ t.clk = false ∧ t.dio = v.getLsbD 7) ∧
    (∃ t, exec .stop s = .next t ∧ t.clk = true ∧ t.dio = true)

/-- The wire command bytes: 0x40; 0xC0 to 0xC5, the position in bits 2:0; 0x88 to 0x8F, the brightness in bits 2:0. Each
goes over the wire as WRITE_BYTE sends it (DEDUCED, entry 15). -/
def Obligations.CommandBytesOnTheWire : Prop :=
  ∀ (s : State) (p : Position) (b : BitVec 3) (a c : Byte), a.toNat = 0xC0 + p.val → c.toNat = 0x88 + b.toNat →
    exec .cmdData s = .next { s with
      clk := false, dio := false, busy := false, seqPos := none, trace := s.trace ++ byteT 0x40#8 } ∧
    exec (.cmdAddr p) s = .next { s with
      clk := false, dio := true, busy := false, seqPos := none, trace := s.trace ++ byteT a } ∧
    exec (.cmdDisp b) s = .next { s with
      clk := false, dio := true, busy := false, seqPos := none, trace := s.trace ++ byteT c }

/-! ## Frames -/

/-- A frame is a start condition, its bytes and a stop condition; its size; the levels it leaves from any levels; and
the engine's operations emit nothing outside frames but INIT's two drives. -/
def Obligations.EverythingIsSentInFrames : Prop :=
  (∀ bs : List Byte, bs ≠ [] →
    frameT bs = startT ++ bs.flatMap byteT ++ stopT ∧ (frameT bs).length = 15 + 54 * bs.length ∧
    countSets (frameT bs) = 8 + 27 * bs.length ∧ countWaits (frameT bs) = 7 + 27 * bs.length ∧
    ∀ s : State, (s.emitAll (frameT bs)).clk = true ∧ (s.emitAll (frameT bs)).dio = true) ∧
  (∀ (i : Instr) (s t : State), engineOnly i = false → exec i s = .next t →
    ∃ (drives : List Event) (fs : List (List Byte)), t.trace = s.trace ++ drives ++ fs.flatMap frameT ∧ (∀ f ∈ fs, f ≠ []) ∧
      (drives = [] ∨ ((∃ c d v, i = .init c d v) ∧ drives = [.set .clk false, .set .dio false])))

/-- DATA_CMD is the frame of the one byte 0x40, from any state; `BRIGHT` and everything else stays. -/
def Obligations.DataCommandFrame : Prop :=
  ∀ s : State, exec .dataCmd s = .next { s with
    clk := true, dio := true, busy := false, seqPos := none, trace := s.trace ++ frameT [0x40#8] }

/-- DISP_CTRL is the frame of the one byte `0x80 | 0x08 | BRIGHT`; `BRIGHT` stays. -/
def Obligations.DisplayControlFrame : Prop :=
  ∀ s : State, exec .dispCtrl s = .next { s with
    clk := true, dio := true, busy := false, seqPos := none,
    trace := s.trace ++ frameT [0x80#8 ||| 0x08#8 ||| s.bright.setWidth 8] }

/-- The permutation: `PERM(i) = (i div 3)*6 + 2 - i`, which reverses each group of three in place and is its own
inverse; six segment bytes are sent in its order. -/
def Obligations.PermutationReversesGroups : Prop :=
  (∀ i : Nat, ((perm i : Nat) : Int) = ((i / 3 : Nat) : Int) * 6 + 2 - i) ∧
  (∀ g r : Nat, r < 3 → perm (3 * g + r) = 3 * g + (2 - r)) ∧
  (∀ i : Nat, perm (perm i) = i) ∧
  [0, 1, 2, 3, 4, 5, 6, 7, 8].map perm = [2, 1, 0, 5, 4, 3, 8, 7, 6] ∧
  (∀ s0 s1 s2 s3 s4 s5 : Byte, permuted [s0, s1, s2, s3, s4, s5] = [s2, s1, s0, s5, s4, s3])

/-- Order of the frames: INIT puts on the wire its two drives, a data command and a display control; SET_BRIGHTNESS a data
command and a display control; WRITE, SHOW, SHOW_HEX and SHOW_NUMBER a data command, an address command with six or three
bytes, a display control, one right after the other; the encoder operations nothing, and they leave the brightness as it
was. The display control carries the brightness the operation leaves. So a data command precedes every content update, and
a display control follows every content update and every brightness change. -/
def Obligations.FramesComeInTheRequiredOrder : Prop :=
  ∀ (i : Instr) (s t : State), engineOnly i = false → exec i s = .next t →
    let dataCommand := frameT [0x40#8]
    let displayControl := frameT [0x80#8 ||| 0x08#8 ||| t.bright.setWidth 8]
    let shape := fun es : List Event => t.trace = s.trace ++ es
    let update := fun counts : List Nat => ∃ (a : Byte) (data : List Byte), isAddrFrame (a :: data) = true ∧
      data.length ∈ counts ∧ shape (dataCommand ++ frameT (a :: data) ++ displayControl)
    match i with
    | .init _ _ _ => shape ([.set .clk false, .set .dio false] ++ dataCommand ++ displayControl)
    | .setBrightness _ => shape (dataCommand ++ displayControl)
    | .write _ _ => update [6, 3]
    | .showText _ _ => update [6]
    | .showHex _ => update [6]
    | .showNumber _ => update [6]
    | .encodeDigit _ => shape [] ∧ t.bright = s.bright
    | .encodeChar _ => shape [] ∧ t.bright = s.bright
    | .encodeString _ => shape [] ∧ t.bright = s.bright
    | .cmdData => False
    | .cmdAddr _ => False
    | .cmdDisp _ => False
    | .start => False
    | .stop => False
    | .writeByte _ => False
    | .dataCmd => False
    | .dispCtrl => False

/-- Only the 15 command bytes ever stand first in a frame. -/
def Obligations.OnlyFifteenFirstBytes : Prop :=
  ∀ (i : Instr) (s t : State), engineOnly i = false → exec i s = .next t →
    ∃ (drives : List Event) (fs : List (List Byte)), t.trace = s.trace ++ drives ++ fs.flatMap frameT ∧ (drives = [] ∨ drives = [c0, d0]) ∧
      ∀ f ∈ fs, ∃ a rest, f = a :: rest ∧ a ∈ firstBytes

/-! ## The host operations -/

/-- INIT: refused when initialised and when its two lines are one; otherwise, when no other engine owns a line of it, it
binds the lines, drives both lines low, stores the clamped brightness, sends the data command and the display control, and
sets `INITED`; nothing else changes but the output enables. A brightness left out is 7. That both output enables go on is
the model's reading of D2 (DEDUCED, entry 24); R100 has the platform make the lines outputs. -/
def Obligations.InitOperation : Prop :=
  ∀ (s : State) (c d : LineId) (v : Int),
    (s.inited = true → exec (.init (some c) (some d) v) s = .refused .alreadyInitialised) ∧
    (s.inited = false → c = d → exec (.init (some c) (some d) v) s = .refused .sameLine) ∧
    (s.inited = false → c ≠ d → c ∉ s.foreignLines → d ∉ s.foreignLines →
      ∀ b : BitVec 3, (b.toNat : Int) = max 0 (min v 7) →
        exec (.init (some c) (some d) v) s = .next { s with
          inited := true, bright := b, clk := true, dio := true, clkOut := true, dioOut := true,
          binding := some (c, d), busy := false, seqPos := none,
          trace := s.trace ++ [.set .clk false, .set .dio false] ++ frameT [0x40#8] ++
            frameT [0x80#8 ||| 0x08#8 ||| b.setWidth 8] }) ∧
    exec (initDefault (some c) (some d)) s = exec (.init (some c) (some d) 7) s

/-- INIT with one identifier or both left out uses the engine's own outputs for them (the model's choice, entry 3: 256 for
the clock line, 257 for the data line), and another engine's line is refused (R122 order 6), a left-out one too. -/
def Obligations.InitLineChecks : Prop :=
  (∀ (s : State) (c d : LineId) (v : Int),
    exec (.init none none v) s = exec (.init (some 256) (some 257) v) s ∧
    exec (.init none (some d) v) s = exec (.init (some 256) (some d) v) s ∧
    exec (.init (some c) none v) s = exec (.init (some c) (some 257) v) s) ∧
  (∀ (s : State) (c d : LineId) (v : Int), s.inited = false → c ≠ d → c ∈ s.foreignLines ∨ d ∈ s.foreignLines →
    exec (.init (some c) (some d) v) s = .refused .sharedLine) ∧
  (∀ (s : State) (c d : LineId) (v : Int), s.inited = false →
    (d = 256 → exec (.init none (some d) v) s = .refused .sameLine) ∧
    (d ≠ 256 → 256 ∈ s.foreignLines → exec (.init none (some d) v) s = .refused .sharedLine) ∧
    (c = 257 → exec (.init (some c) none v) s = .refused .sameLine) ∧
    (c ≠ 257 → 257 ∈ s.foreignLines → exec (.init (some c) none v) s = .refused .sharedLine))

/-- SET_BRIGHTNESS: refused before INIT; otherwise stores `value mod 8`, sends the data command and the display control
of the new brightness, and returns it; nothing else changes. -/
def Obligations.SetBrightnessOperation : Prop :=
  ∀ (s : State) (v : Int) (b : BitVec 3), (b.toNat : Int) = v % 8 →
    (s.inited = false → exec (.setBrightness v) s = .refused .notInitialised) ∧
    (s.inited = true → exec (.setBrightness v) s = .next { s with
      bright := b, clk := true, dio := true, busy := false, seqPos := none,
      results := s.results ++ [.byte (b.setWidth 8)],
      trace := s.trace ++ frameT [0x40#8] ++ frameT [0x80#8 ||| 0x08#8 ||| b.setWidth 8] })

/-- WRITE: refused before INIT and, after it, for any number of segment bytes but six and three; otherwise the data
command, the address command of the clamped position with the bytes in the order 2,1,0,5,4,3 or 2,1,0, bit 7 and all, and
the display control; nothing else changes. A position left out is 0. -/
def Obligations.WriteOperation : Prop :=
  ∀ (s : State) (pos : Int) (p : Byte), (p.toNat : Int) = max 0 (min pos 5) →
    (∀ segs, s.inited = false → exec (.write segs pos) s = .refused .notInitialised) ∧
    (∀ segs, s.inited = true → segs.length ≠ 6 → segs.length ≠ 3 →
      exec (.write segs pos) s = .refused .badSegmentCount) ∧
    (s.inited = true → ∀ s0 s1 s2 s3 s4 s5 : Byte, exec (.write [s0, s1, s2, s3, s4, s5] pos) s = .next { s with
      clk := true, dio := true, busy := false, seqPos := none,
      trace := s.trace ++ frameT [0x40#8] ++ frameT [0xC0#8 ||| p, s2, s1, s0, s5, s4, s3] ++
        frameT [0x80#8 ||| 0x08#8 ||| s.bright.setWidth 8] }) ∧
    (s.inited = true → ∀ s0 s1 s2 : Byte, exec (.write [s0, s1, s2] pos) s = .next { s with
      clk := true, dio := true, busy := false, seqPos := none,
      trace := s.trace ++ frameT [0x40#8] ++ frameT [0xC0#8 ||| p, s2, s1, s0] ++
        frameT [0x80#8 ||| 0x08#8 ||| s.bright.setWidth 8] }) ∧
    (∀ segs, exec (writeDefault segs) s = exec (.write segs 0) s)

/-- SHOW: refused before INIT and, after it, for a text with more than six characters other than `.`; otherwise the WRITE
of the six bytes of ENCODE_STRING at position 0. The colon flag changes nothing; left out it is false. -/
def Obligations.ShowOperation : Prop :=
  ∀ (s : State) (text : Text) (colon : Bool),
    (s.inited = false → exec (.showText text colon) s = .refused .notInitialised) ∧
    (s.inited = true → symbols text > 6 → exec (.showText text colon) s = .refused .textTooLong) ∧
    (s.inited = true → symbols text ≤ 6 → ∃ s0 s1 s2 s3 s4 s5, encodeString text = some [s0, s1, s2, s3, s4, s5] ∧
      exec (.showText text colon) s = .next { s with
        clk := true, dio := true, busy := false, seqPos := none,
        trace := s.trace ++ frameT [0x40#8] ++ frameT [0xC0#8, s2, s1, s0, s5, s4, s3] ++
          frameT [0x80#8 ||| 0x08#8 ||| s.bright.setWidth 8] }) ∧
    exec (showDefault text) s = exec (.showText text false) s

/-- SHOW_HEX: refused before INIT; after it, it always shows the six characters, none of them `.`, that `HEX_FMT` gives
for the value modulo 65536. -/
def Obligations.ShowHexOperation : Prop :=
  ∀ (s : State) (v : Int) (x : BitVec 16), (x.toNat : Int) = v % 65536 →
    (s.inited = false → exec (.showHex v) s = .refused .notInitialised) ∧
    (hexFmt x).length = 6 ∧ dot ∉ hexFmt x ∧
    (s.inited = true → ∃ s0 s1 s2 s3 s4 s5, encodeString (hexFmt x) = some [s0, s1, s2, s3, s4, s5] ∧
      exec (.showHex v) s = .next { s with
        clk := true, dio := true, busy := false, seqPos := none,
        trace := s.trace ++ frameT [0x40#8] ++ frameT [0xC0#8, s2, s1, s0, s5, s4, s3] ++
          frameT [0x80#8 ||| 0x08#8 ||| s.bright.setWidth 8] })

/-- SHOW_NUMBER: refused before INIT and, after it, when the text `DEC_FMT` gives has more than six characters other than
`.`; otherwise it shows that text. -/
def Obligations.ShowNumberOperation : Prop :=
  ∀ (s : State) (v : Int),
    (s.inited = false → exec (.showNumber v) s = .refused .notInitialised) ∧
    (s.inited = true → symbols (decFmt s.decTexts v) > 6 → exec (.showNumber v) s = .refused .textTooLong) ∧
    (s.inited = true → symbols (decFmt s.decTexts v) ≤ 6 →
      ∃ s0 s1 s2 s3 s4 s5, encodeString (decFmt s.decTexts v) = some [s0, s1, s2, s3, s4, s5] ∧
        exec (.showNumber v) s = .next { s with
          clk := true, dio := true, busy := false, seqPos := none,
          trace := s.trace ++ frameT [0x40#8] ++ frameT [0xC0#8, s2, s1, s0, s5, s4, s3] ++
            frameT [0x80#8 ||| 0x08#8 ||| s.bright.setWidth 8] })

/-- The operations defined wholly as others, and the defaulted operands. -/
def Obligations.PseudoOperationsExpand : Prop :=
  ∀ (s : State) (text : Text) (colon : Bool) (segs : Segs) (v : Int) (x : BitVec 16) (c d : Option LineId),
    (x.toNat : Int) = v % 65536 →
    (encodeString text = some segs → exec (.showText text colon) s = exec (.write segs 0) s) ∧
    exec (.showHex v) s = exec (.showText (hexFmt x) colon) s ∧
    exec (.showNumber v) s = exec (.showText (decFmt s.decTexts v) colon) s ∧
    exec (initDefault c d) s = exec (.init c d 7) s ∧
    exec (writeDefault segs) s = exec (.write segs 0) s ∧
    exec (showDefault text) s = exec (.showText text false) s

/-- INIT first: until it, and after every reset, each other engine operation is refused; the encoder operations need no
initialisation. -/
def Obligations.InitComesFirst : Prop :=
  ∀ s : State, s.inited = false →
    (∀ v, exec (.setBrightness v) s = .refused .notInitialised) ∧
    (∀ segs pos, exec (.write segs pos) s = .refused .notInitialised) ∧
    (∀ text colon, exec (.showText text colon) s = .refused .notInitialised) ∧
    (∀ v, exec (.showHex v) s = .refused .notInitialised) ∧
    (∀ v, exec (.showNumber v) s = .refused .notInitialised) ∧
    (∀ v, ∃ t, exec (.encodeDigit v) s = .next t) ∧
    (∀ ch, ∃ t, exec (.encodeChar ch) s = .next t) ∧
    (∀ text, symbols text ≤ 6 → ∃ t, exec (.encodeString text) s = .next t) ∧
    (∀ u : State, u.resetInput.inited = false)

/-- The counts and least times of R150, on the sequences and on what the operations add to the trace. -/
def Obligations.EventCounts : Prop :=
  let counts := fun (es : List Event) (n sets waits : Nat) =>
    es.length = n ∧ countSets es = sets ∧ countWaits es = waits ∧ minTime es = 10 * waits
  counts startT 8 4 4 ∧ counts stopT 7 4 3 ∧ (∀ b, counts (bitT b) 6 3 3) ∧ counts ackT 6 3 3 ∧
  (∀ v, counts (byteT v) 54 27 27) ∧
  (∀ bs, counts (frameT bs) (15 + 54 * bs.length) (8 + 27 * bs.length) (7 + 27 * bs.length)) ∧
  (∀ p segs, segs.length = 3 → counts (dataXferT p segs) 231 116 115) ∧
  (∀ p segs, segs.length = 6 → counts (dataXferT p segs) 393 197 196) ∧
  (∀ i s t, exec i s = .next t →
    match i with
    | .cmdData => True
    | .cmdAddr _ => True
    | .cmdDisp _ => True
    | .init _ _ _ => counts (eventsSince s t) 140 72 68
    | .setBrightness _ => counts (eventsSince s t) 138 70 68
    | .write segs _ =>
      (segs.length = 6 ∧ counts (eventsSince s t) 531 267 264) ∨ (segs.length = 3 ∧ counts (eventsSince s t) 369 186 183)
    | .showText _ _ => counts (eventsSince s t) 531 267 264
    | .showHex _ => counts (eventsSince s t) 531 267 264
    | .showNumber _ => counts (eventsSince s t) 531 267 264
    | .encodeDigit _ => counts (eventsSince s t) 0 0 0
    | .encodeChar _ => counts (eventsSince s t) 0 0 0
    | .encodeString _ => counts (eventsSince s t) 0 0 0
    | .start => counts (eventsSince s t) 8 4 4
    | .stop => counts (eventsSince s t) 7 4 3
    | .writeByte _ => counts (eventsSince s t) 54 27 27
    | .dataCmd => counts (eventsSince s t) 69 35 34
    | .dispCtrl => counts (eventsSince s t) 69 35 34)

/-! ## The encoder -/

/-- ENCODE_DIGIT returns the table entry at `value mod 16`, bit 7 clear, in every state, and changes nothing else. -/
def Obligations.EncodeDigitOperation : Prop :=
  ∀ (s : State) (v : Int) (k : Fin 39), (k.val : Int) = v % 16 →
    exec (.encodeDigit v) s = .next { s with results := s.results ++ [.byte (segTable k)] } ∧
    (segTable k).getLsbD 7 = false

/-- ENCODE_CHAR returns the table entry its range checks give, bit 7 clear, in every state, and changes nothing else. -/
def Obligations.EncodeCharOperation : Prop :=
  ∀ (s : State) (ch : Byte), ∃ k : Fin 39,
    exec (.encodeChar ch) s = .next { s with results := s.results ++ [.byte (segTable k)] } ∧
    (segTable k).getLsbD 7 = false ∧
    (ch.toNat = 0x20 → k.val = 36) ∧ (ch.toNat = 0x2A → k.val = 38) ∧ (ch.toNat = 0x2D → k.val = 37) ∧
    (0x41 ≤ ch.toNat → ch.toNat ≤ 0x5A → k.val = ch.toNat - 0x41 + 10) ∧
    (0x61 ≤ ch.toNat → ch.toNat ≤ 0x7A → k.val = ch.toNat - 0x61 + 10) ∧
    (0x30 ≤ ch.toNat → ch.toNat ≤ 0x39 → k.val = ch.toNat - 0x30) ∧
    (ch.toNat ≠ 0x20 → ch.toNat ≠ 0x2D → ¬ (0x41 ≤ ch.toNat ∧ ch.toNat ≤ 0x5A) →
      ¬ (0x61 ≤ ch.toNat ∧ ch.toNat ≤ 0x7A) → ¬ (0x30 ≤ ch.toNat ∧ ch.toNat ≤ 0x39) → k.val = 38)

/-- ENCODE_STRING: for at most six characters other than `.`, entry k is ENCODE_CHAR of the k-th of them, with bit 7 set
when a `.` stands right after it, and the rest of the six entries are blank; in every state, changing nothing else. For
more it is refused. -/
def Obligations.EncodeStringOperation : Prop :=
  ∀ (s : State) (text : Text),
    (symbols text > 6 → exec (.encodeString text) s = .refused .textTooLong) ∧
    (symbols text ≤ 6 →
      exec (.encodeString text) s = .next { s with
        results := s.results ++ [.seq ((cells text).map cellByte ++ List.replicate (6 - symbols text) blank)] } ∧
      (cells text).length = symbols text ∧
      (∀ e ∈ List.replicate (6 - symbols text) blank, e.getLsbD 7 = false) ∧
      (∀ cell ∈ cells text, cell.1 ≠ dot ∧ ((cellByte cell).getLsbD 7 = true ↔ cell.2 = true)))

/-- More than six characters other than `.`: ENCODE_STRING and SHOW are refused for such a text; SHOW_HEX and SHOW_NUMBER
answer what SHOW answers for the text their formatter gives, so they are refused with it. -/
def Obligations.LongTextsAreRefused : Prop :=
  ∀ (s : State) (text : Text) (colon : Bool) (v : Int), symbols text > 6 → s.inited = true →
    (∀ u : State, exec (.encodeString text) u = .refused .textTooLong) ∧
    exec (.showText text colon) s = .refused .textTooLong ∧
    exec (.showHex v) s = exec (.showText (hexFmt (hexValue v)) colon) s ∧
    exec (.showNumber v) s = exec (.showText (decFmt s.decTexts v) colon) s

/-- The reference formatters of D14 and D15 (the spec's own choice, for its vectors only; no operation uses them): the
hexadecimal one meets what `HEX_FMT` must, the decimal one gives at least six characters, none of them `.`, and its text
can be shown exactly for -99999 to 999999. -/
def Obligations.ReferenceFormattersMeetTheConstraints : Prop :=
  (∀ x : BitVec 16, (hexFmtRef x).length = 6 ∧ dot ∉ hexFmtRef x) ∧
  (∀ v : Int, 6 ≤ (decFmtRef v).length ∧ dot ∉ decFmtRef v) ∧
  (∀ v : Int, symbols (decFmtRef v) ≤ 6 ↔ -99999 ≤ v ∧ v ≤ 999999)

/-- The encoder operations are pure: what each returns, or that it is refused, does not depend on the state, and nothing
but the returned value is new. -/
def Obligations.EncoderOperationsArePure : Prop :=
  ∀ i : Instr, ((∃ v, i = .encodeDigit v) ∨ (∃ ch, i = .encodeChar ch) ∨ (∃ text, i = .encodeString text)) →
    (∃ r, ∀ s : State, exec i s = .next { s with results := s.results ++ [r] }) ∨
    ((∃ text, i = .encodeString text ∧ symbols text > 6) ∧ ∀ s : State, exec i s = .refused .textTooLong)

/-! ## The whole machine -/

/-- `BRIGHT` is written by INIT and SET_BRIGHTNESS only. -/
def Obligations.OnlyTwoOperationsWriteBright : Prop :=
  ∀ (i : Instr) (s t : State), exec i s = .next t → t.bright ≠ s.bright →
    (∃ c d v, i = .init c d v ∧ (t.bright.toNat : Int) = max 0 (min v 7)) ∨
    (∃ v, i = .setBrightness v ∧ (t.bright.toNat : Int) = v % 8)

/-- What an operation leaves: the binding, the output enables and `INITED` but by INIT, the lines of other engines, the
requests waiting, the free-value counter, the parameter `DEC_FMT`; the returned values but by SET_BRIGHTNESS and the encoder
operations. That the output enables stay on after INIT is the model's reading of D2 (DEDUCED, entry 24); the counter, the
parameter and other engines' lines are held in State by the model's choice (entries 9, 7, 20). -/
def Obligations.WhatOperationsLeaveAlone : Prop :=
  ∀ (i : Instr) (s t : State), exec i s = .next t →
    t.foreignLines = s.foreignLines ∧ t.inputs = s.inputs ∧ t.resets = s.resets ∧ t.decTexts = s.decTexts ∧
    ((∀ c d v, i ≠ .init c d v) →
      t.inited = s.inited ∧ t.binding = s.binding ∧ t.clkOut = s.clkOut ∧ t.dioOut = s.dioOut) ∧
    ((∀ v, i ≠ .setBrightness v) → (∀ v, i ≠ .encodeDigit v) → (∀ c, i ≠ .encodeChar c) →
      (∀ x, i ≠ .encodeString x) → t.results = s.results)

/-- Events are never taken back or reordered: the trace before a step is the front of the trace after it,
over a reset too (DEDUCED, entry 11). -/
def Obligations.TraceOnlyGrows : Prop := ∀ s t : State, step s = .next t → s.trace <+: t.trace

/-- Determinism: what an operation emits and returns depends on its operands, on `BRIGHT` and on the parameters, not on the
line levels, on earlier operations or on anything else. A SHOW_NUMBER of 7 that is not refused, issued twice in a row, sends
the same twice. -/
def Obligations.TracesDependOnOperandsAndBright : Prop :=
  (∀ (i : Instr) (s t s' t' : State), s.bright = s'.bright → s.decTexts = s'.decTexts → exec i s = .next t →
    exec i s' = .next t' →
    ∃ es rs, t.trace = s.trace ++ es ∧ t'.trace = s'.trace ++ es ∧ t.results = s.results ++ rs ∧
      t'.results = s'.results ++ rs ∧ t.bright = t'.bright) ∧
  (∀ s t : State, exec (.showNumber 7) s = .next t → ∃ u es, exec (.showNumber 7) t = .next u ∧
    t.trace = s.trace ++ es ∧ u.trace = t.trace ++ es ∧ es ≠ [])

/-- Nothing can read `BRIGHT` or the line levels before INIT: a host's operation does the same whatever they hold. -/
def Obligations.ValuesBeforeInitAreNeverSeen : Prop :=
  ∀ (i : Instr) (s t : State) (b : BitVec 3) (c d : Level), s.inited = false → engineOnly i = false →
    exec i s = .next t →
    ∃ t', exec i { s with bright := b, clk := c, dio := d } = .next t' ∧ t'.trace = t.trace ∧ t'.results = t.results ∧
      t'.inited = t.inited ∧ t'.binding = t.binding ∧
      (t.inited = true → t' = t)

/-- Level changes are held apart: after any operation of the host that starts with both lines high, as every one but the
first does, even right after a level change, any two sets of it that both change a level have a wait between them; in
INIT, all but its first three sets. -/
def Obligations.LevelChangesAreHeldApart : Prop :=
  ∀ (i : Instr) (s t : State), engineOnly i = false → exec i s = .next t →
    (∃ c d v, i = .init c d v ∧ ∃ es,
      t.trace = s.trace ++ [.set .clk false, .set .dio false, .set .clk true] ++ es ∧
        heldApart true false true es = true) ∨
    ((∀ c d v, i ≠ .init c d v) ∧ ∃ es, t.trace = s.trace ++ es ∧ heldApart true true true es = true)

/-- The state after reset holds level changes apart. -/
def Obligations.ResetIsHeld : Prop := State.reset.Held

/-- Every step keeps it, resets inside an operation included, that the whole trace holds level changes apart: it is cut into
runs, no more of them finished than there have been resets, so that a trace without a reset is one run; and in a run come
INIT's first three sets, and then any two sets that both change a level have a wait between them, over all operations.
That a run ends at a reset and nowhere else is RunsBeginAtInitAndEndAtResets. Resets are counted by the model's own counter
(entry 9), and a reset leaves the trace as it stands (DEDUCED, entry 11). -/
def Obligations.EveryStepKeepsLevelChangesApart : Prop :=
  (∀ s t : State, s.Held → step s = .next t → t.Held) ∧
  (∀ s : State, s.Held → HeldThroughout (s.resets + 1) s.trace) ∧
  (∀ s : State, s.Held → s.resets = 0 → s.trace = [] ∨ ∃ rest,
    s.trace = [.set .clk false, .set .dio false, .set .clk true] ++ rest ∧ heldApart true false true rest = true)

/-- Where runs begin and end, step by step: before INIT a step adds nothing, or INIT's run, or the front of it that a reset
leaves; after INIT, wherever the run's beginning was, a step leaves it there and adds to the run events that keep all of it
held apart, over the operation before and with no new exception; and while the engine stays initialised both lines end high
and no reset has fallen, while a step that ends the run counts one reset. Resets are counted by the model's own counter
(entry 9), and a reset leaves the trace as it stands (DEDUCED, entry 11). -/
def Obligations.RunsBeginAtInitAndEndAtResets : Prop :=
  ∀ s t : State, s.inputs.all Input.fromHost = true → step s = .next t →
    (s.inited = false →
      (t.inited = true → t.resets = s.resets ∧ ∃ rest,
        t.trace = s.trace ++ ([.set .clk false, .set .dio false, .set .clk true] ++ rest) ∧ HeldSinceInit rest) ∧
      (t.inited = false → t.trace = s.trace ∨ t.resets = s.resets + 1 ∧
        ∃ run, t.trace = s.trace ++ run ∧ HeldRun run)) ∧
    (s.inited = true → ∀ earlier rest,
      s.trace = earlier ++ ([.set .clk false, .set .dio false, .set .clk true] ++ rest) → HeldSinceInit rest →
      ∃ more, t.trace = earlier ++ ([.set .clk false, .set .dio false, .set .clk true] ++ (rest ++ more)) ∧
        heldApart true false true (rest ++ more) = true ∧
        (t.inited = true → t.resets = s.resets ∧ HeldSinceInit (rest ++ more)) ∧
        (t.inited = false → t.resets = s.resets + 1))

/-- Reset meets the invariant; that nothing is presented there is the model's choice (entry 10). -/
def Obligations.ResetIsSound : Prop := State.reset.Sound

/-- Every step keeps the invariant: nothing in progress between steps; once initialised, both lines high, driven, bound
to two different lines no other engine owns; before that, drivers off and nothing bound. That both output enables go on in
INIT and stay on until a reset is the model's reading of D2 and R100 (DEDUCED, entry 24). That an operation is one step, that
a line identifier left out stands for the engine's own output, and how an engine is told the others' lines, are the model's
choices (entries 1, 3, 20); the invariant has as a premise that only the host issues operations (`Sound.fromHost`,
entry 16). -/
def Obligations.EveryStepKeepsSoundness : Prop := ∀ s t : State, s.Sound → step s = .next t → t.Sound

/-- Reset meets the invariant of the wire. -/
def Obligations.ResetIsWireSound : Prop := State.reset.WireSound

/-- Every step keeps it that what the observer (non-normative, entry 19) reads of the wire is whole frames in the order the
chip requires. Requests cut by a reset stand outside: the invariant has as a premise that none is presented
(`WireSound.uncut`); InitAfterACut says what the next INIT leaves on the wire after one. -/
def Obligations.EveryStepKeepsTheWireInOrder : Prop := ∀ s t : State, s.WireSound → step s = .next t → t.WireSound

/-- INIT's events after any trace whatever, such as one that a reset cut in the middle of a frame: if the observer
(non-normative, entry 19) stands in a frame, INIT's first sets give it one more clock pulse, with the data line low, and
close it: with the bytes it had, and, if seven bits of one more had been read, that one too, its bit 7 being 0; then come the data command and the display control, whole. If it stands
outside a frame, nothing but those two is added. -/
def Obligations.InitAfterACut : Prop :=
  ∀ (trace : List Event) (b : BitVec 3),
    let o := Observer.fresh.seeAll trace
    let p := Observer.fresh.seeAll (trace ++ initT b)
    p.frame = none ∧ p.clk = some true ∧ p.dio = some true ∧
    match o.frame with
    | none => observe (trace ++ initT b) = observe trace ++ [[0x40#8], [0x80#8 ||| 0x08#8 ||| b.setWidth 8]]
    | some f =>
      observe (trace ++ initT b) =
        observe trace ++ [(f.pulse false).bytes, [0x40#8], [0x80#8 ||| 0x08#8 ||| b.setWidth 8]] ∧
      (f.pulse false).bytes = if f.clocks = 7 then f.bytes ++ [byteOfBits (f.bits ++ [false])] else f.bytes

/-- The observer (non-normative, entry 19) reads back from a frame the bytes that were sent. -/
def Obligations.ObserverReadsFramesBack : Prop := ∀ bs : List Byte, observe (frameT bs) = [bs]

/-- The picture of the chip's slots (non-normative, entry 19) after a WRITE of six bytes at position 0. -/
def Obligations.SlotsAfterWrite : Prop :=
  ∀ (s t : State) (s0 s1 s2 s3 s4 s5 : Byte) (pos : Int), s.WireSound → s.inited = true → pos ≤ 0 →
    exec (.write [s0, s1, s2, s3, s4, s5] pos) s = .next t →
    slotsAfter t.trace = [some s2, some s1, some s0, some s5, some s4, some s3]

/-- Engines side by side never come to share a line. It rests on how the model puts engines side by side (the model's
choice, entry 20): they step one at a time, and before each step an engine is told the others' lines. A line identifier left
out stands for the engine's own output, 256 or 257 in each of them (the model's choice, entry 3). -/
def Obligations.EnginesNeverShareALine : Prop :=
  ∀ (rig rig' : Rig) (k : Nat), rig.Exclusive → rig.stepAt k = some rig' → rig'.Exclusive
end

