-- ==== Sys2Proof/Laws/Decode.lean ====
section
/-! SUPPORT. The table of first bytes is unambiguous; the parts of the decoder undo the parts of the encoder. -/

namespace Sys2Proof

/-- No first byte is announced by two rows. -/
theorem rows_disjoint :
    rows.Pairwise (fun r q => r.pattern &&& q.mask ≠ q.pattern &&& r.mask) := by decide

theorem takeBytes_append (xs ys : List Byte) : takeBytes xs.length (xs ++ ys) = some (xs, ys) := by
  simp [takeBytes]

theorem takeBytes_some {n : Nat} {bs xs ys : List Byte} (h : takeBytes n bs = some (xs, ys)) :
    xs.length = n ∧ bs = xs ++ ys := by
  unfold takeBytes at h
  split at h
  · cases h
    simp_all
  · cases h

theorem byteInt_intByte {v : Int} (h : FitsByte v) : byteInt (intByte v) = v := by
  simp only [byteInt, intByte, BitVec.toNat_ofInt]
  omega

theorem lineOfByte_byteOfLine {l : Option LineId} (h : FitsLine l) : lineOfByte (byteOfLine l) = l := by
  cases l with
  | none => rfl
  | some n =>
    simp only [FitsLine, Option.all_some, decide_eq_true_eq] at h
    have hn : n % 256 = n := Nat.mod_eq_of_lt h.2
    have h0 : BitVec.ofNat 8 n ≠ 0#8 := fun e => by
      have e' : n % 256 = 0 := by simpa using congrArg BitVec.toNat e
      exact absurd (hn.symm.trans e') (Nat.ne_of_gt h.1)
    simp [lineOfByte, byteOfLine, h0, hn]

/-- Reading a number's bytes gives it back, whatever follows them. -/
theorem natField_natBytesFrom (rest : List Byte) : ∀ fuel n : Nat, n ≤ fuel →
    natField (natBytesFrom fuel n ++ rest) = some (n, rest) := by
  have last : ∀ n, n < 128 → natField ([BitVec.ofNat 8 n] ++ rest) = some (n, rest) := fun n hn => by
    have h : n % 256 = n := by omega
    simp [natField, h, hn]
  intro fuel
  induction fuel with
  | zero => exact fun n hn => last n (by omega)
  | succ fuel ih =>
    intro n hn
    by_cases h : n < 128
    · rw [natBytesFrom, if_pos h]
      exact last n h
    · have hb : (128 + n % 128) % 256 = 128 + n % 128 := by omega
      rw [natBytesFrom, if_neg h, List.cons_append, natField, ih _ (by omega)]
      simp only [BitVec.toNat_ofNat, Nat.reducePow, hb]
      rw [if_neg (by omega)]
      simp only [Option.some.injEq, Prod.mk.injEq, and_true]
      omega

theorem natField_natBytes (n : Nat) (rest : List Byte) : natField (natBytes n ++ rest) = some (n, rest) :=
  natField_natBytesFrom rest n n le_rfl

/-- A number's bytes are the only ones read as it. -/
theorem natBytesFrom_of_natField {bs rest : List Byte} : ∀ {n fuel : Nat}, natField bs = some (n, rest) → n ≤ fuel →
    bs = natBytesFrom fuel n ++ rest := by
  induction bs with
  | nil => intro n fuel h _; cases h
  | cons b bs ih =>
    intro n fuel h hf
    have hb := b.isLt
    rw [natField] at h
    split at h
    · rename_i hlt
      cases h
      cases fuel <;> simp [natBytesFrom, hlt]
    · rename_i hge
      split at h
      · rename_i m r hm
        cases h
        obtain ⟨fuel, rfl⟩ : ∃ k, fuel = k + 1 := ⟨fuel - 1, by omega⟩
        have hmod : (128 * m + b.toNat) % 128 = b.toNat - 128 := by omega
        have hdiv : (128 * m + b.toNat) / 128 - 1 = m := by omega
        have hbyte : BitVec.ofNat 8 (128 + (b.toNat - 128)) = b := by
          rw [show 128 + (b.toNat - 128) = b.toNat by omega, BitVec.ofNat_toNat, BitVec.setWidth_eq]
        rw [natBytesFrom, if_neg (by omega), hmod, hdiv, hbyte, List.cons_append, ← ih hm (by omega)]
      · cases h

theorem natBytes_of_natField {bs rest : List Byte} {n : Nat} (h : natField bs = some (n, rest)) :
    bs = natBytes n ++ rest := natBytesFrom_of_natField h le_rfl

theorem intOfCode_codeOfInt (v : Int) : intOfCode (codeOfInt v) = v := by
  cases v with
  | ofNat n => simp [codeOfInt, intOfCode]
  | negSucc n =>
    have h : (2 * n + 1) / 2 = n := by omega
    simp [codeOfInt, intOfCode, Nat.add_mod, h]

theorem codeOfInt_intOfCode (n : Nat) : codeOfInt (intOfCode n) = n := by
  unfold intOfCode
  split <;> simp only [codeOfInt] <;> omega

/-- A counted text is read back, whatever follows it. -/
theorem textField_counted (text rest : List Byte) : textField (counted text ++ rest) = some (text, rest) := by
  rw [textField, counted, List.append_assoc, natField_natBytes]
  exact takeBytes_append text rest

/-- What is read as a text is that text, counted, before what is left. -/
theorem counted_of_textField {bs rest : List Byte} {text : Text} (h : textField bs = some (text, rest)) :
    bs = counted text ++ rest := by
  unfold textField at h
  split at h
  · rename_i n r hn
    obtain ⟨hl, rfl⟩ := takeBytes_some h
    rw [natBytes_of_natField hn, counted, hl, List.append_assoc]
  · cases h

end Sys2Proof
end

