-- ==== Sys2Proof/Laws/Encoder.lean ====
section
/-! SUPPORT. Lengths in the encoder, bit 7 of the table, the formatters. -/

namespace Sys2Proof.Machine

/-- Every table entry has bit 7 clear (20_memory.md R33). -/
theorem segTable_bit7 (i : Fin 39) : (segTable i).getLsbD 7 = false := by
  simp [segTable]

@[simp] theorem segTable_getElem_bit7 (i : Fin 39) : (segTable i)[7] = false := segTable_bit7 i

@[simp] theorem markLast_length (xs : Segs) : (markLast xs).length = xs.length := by
  induction xs using markLast.induct with
  | case1 => rfl
  | case2 x => rfl
  | case3 x y rest ih => simpa [markLast] using ih

theorem encodeNext_length (out : Segs) (ch : Byte) :
    (encodeNext out ch).length = out.length + (if ch = dot then 0 else 1) := by
  unfold encodeNext
  split <;> simp

theorem encodeNext_foldl_length (text : Text) (out : Segs) :
    (text.foldl encodeNext out).length = out.length + symbols text := by
  induction text generalizing out with
  | nil => simp [symbols]
  | cons c cs ih =>
    rw [List.foldl_cons, ih, encodeNext_length]
    by_cases hc : c = dot
    · simp [symbols, hc]
    · simp [symbols, hc]; omega

/-- The second pass gives one entry for each character that is not `.` (40_segment_encoder.md R70). -/
theorem encodePass_length (text : Text) : (encodePass text).length = symbols text := by
  simpa [encodePass] using encodeNext_foldl_length text []

/-- ENCODE_STRING gives six entries (R67). -/
theorem encodeString_length {text : Text} {segs : Segs} (h : encodeString text = some segs) : segs.length = 6 := by
  unfold encodeString at h
  split at h
  · cases h
  · cases h
    simp only [padBlank, List.length_append, List.length_replicate, encodePass_length]
    simp only [Config.nSlots] at *
    omega

theorem encodeString_segCountOk {text : Text} {segs : Segs} (h : encodeString text = some segs) :
    segCountOk segs = true := by
  simp [segCountOk, encodeString_length h]

theorem encodeString_isSome {text : Text} (h : symbols text ≤ 6) :
    encodeString text = some (padBlank (encodePass text)) := by
  simp [encodeString, Config.nSlots, Nat.not_lt.mpr h]

theorem codeNotDot_ne (x : Fin 255) : codeNotDot x ≠ dot := by
  obtain ⟨x, hx⟩ := x
  intro h
  have := congrArg BitVec.toNat h
  unfold codeNotDot dot at this
  split at this <;> simp at * <;> omega

/-- The text of SHOW_HEX has six characters, none of them `.` (43_host_operations.md R104). -/
theorem hexFmt_symbols (v : BitVec 16) : symbols (hexFmt v) = 6 := by
  simp [symbols, hexFmt, codeNotDot_ne, List.filter_eq_self.mpr]

/-- The text of a value that is listed. -/
@[simp] theorem decFmt_listed (v : Int) (t : Text) (fixed : List (Int × Text)) : decFmt ((v, t) :: fixed) v = t := by
  simp [decFmt]

/-- With nothing listed, the text is the open parameter's. -/
@[simp] theorem decFmt_nil (v : Int) : decFmt [] v = Config.decText v := rfl

end Sys2Proof.Machine
end

