-- ==== Sys2Proof/Laws/State.lean ====
section
/-! SUPPORT. One lemma for each field and each update of the state, true by `rfl`, and what `emit` and `emitAll` do. -/

namespace Sys2Proof.Machine

/-! ### `accept` -/

@[simp] theorem State.accept_inited (s : State) : (s.accept).inited = s.inited := rfl
@[simp] theorem State.accept_bright (s : State) : (s.accept).bright = s.bright := rfl
@[simp] theorem State.accept_clk (s : State) : (s.accept).clk = s.clk := rfl
@[simp] theorem State.accept_dio (s : State) : (s.accept).dio = s.dio := rfl
@[simp] theorem State.accept_clkOut (s : State) : (s.accept).clkOut = s.clkOut := rfl
@[simp] theorem State.accept_dioOut (s : State) : (s.accept).dioOut = s.dioOut := rfl
@[simp] theorem State.accept_binding (s : State) : (s.accept).binding = s.binding := rfl
@[simp] theorem State.accept_busy (s : State) : (s.accept).busy = true := rfl
@[simp] theorem State.accept_seqPos (s : State) : (s.accept).seqPos = some 0 := rfl
@[simp] theorem State.accept_trace (s : State) : (s.accept).trace = s.trace := rfl
@[simp] theorem State.accept_results (s : State) : (s.accept).results = s.results := rfl
@[simp] theorem State.accept_inputs (s : State) : (s.accept).inputs = s.inputs := rfl
@[simp] theorem State.accept_foreignLines (s : State) : (s.accept).foreignLines = s.foreignLines := rfl
@[simp] theorem State.accept_resets (s : State) : (s.accept).resets = s.resets := rfl
@[simp] theorem State.accept_decTexts (s : State) : (s.accept).decTexts = s.decTexts := rfl

/-! ### `finish` -/

@[simp] theorem State.finish_inited (s : State) : (s.finish).inited = s.inited := rfl
@[simp] theorem State.finish_bright (s : State) : (s.finish).bright = s.bright := rfl
@[simp] theorem State.finish_clk (s : State) : (s.finish).clk = s.clk := rfl
@[simp] theorem State.finish_dio (s : State) : (s.finish).dio = s.dio := rfl
@[simp] theorem State.finish_clkOut (s : State) : (s.finish).clkOut = s.clkOut := rfl
@[simp] theorem State.finish_dioOut (s : State) : (s.finish).dioOut = s.dioOut := rfl
@[simp] theorem State.finish_binding (s : State) : (s.finish).binding = s.binding := rfl
@[simp] theorem State.finish_busy (s : State) : (s.finish).busy = false := rfl
@[simp] theorem State.finish_seqPos (s : State) : (s.finish).seqPos = none := rfl
@[simp] theorem State.finish_trace (s : State) : (s.finish).trace = s.trace := rfl
@[simp] theorem State.finish_results (s : State) : (s.finish).results = s.results := rfl
@[simp] theorem State.finish_inputs (s : State) : (s.finish).inputs = s.inputs := rfl
@[simp] theorem State.finish_foreignLines (s : State) : (s.finish).foreignLines = s.foreignLines := rfl
@[simp] theorem State.finish_resets (s : State) : (s.finish).resets = s.resets := rfl
@[simp] theorem State.finish_decTexts (s : State) : (s.finish).decTexts = s.decTexts := rfl

/-! ### `setInited` -/

@[simp] theorem State.setInited_inited (s : State) : (s.setInited).inited = true := rfl
@[simp] theorem State.setInited_bright (s : State) : (s.setInited).bright = s.bright := rfl
@[simp] theorem State.setInited_clk (s : State) : (s.setInited).clk = s.clk := rfl
@[simp] theorem State.setInited_dio (s : State) : (s.setInited).dio = s.dio := rfl
@[simp] theorem State.setInited_clkOut (s : State) : (s.setInited).clkOut = s.clkOut := rfl
@[simp] theorem State.setInited_dioOut (s : State) : (s.setInited).dioOut = s.dioOut := rfl
@[simp] theorem State.setInited_binding (s : State) : (s.setInited).binding = s.binding := rfl
@[simp] theorem State.setInited_busy (s : State) : (s.setInited).busy = s.busy := rfl
@[simp] theorem State.setInited_seqPos (s : State) : (s.setInited).seqPos = s.seqPos := rfl
@[simp] theorem State.setInited_trace (s : State) : (s.setInited).trace = s.trace := rfl
@[simp] theorem State.setInited_results (s : State) : (s.setInited).results = s.results := rfl
@[simp] theorem State.setInited_inputs (s : State) : (s.setInited).inputs = s.inputs := rfl
@[simp] theorem State.setInited_foreignLines (s : State) : (s.setInited).foreignLines = s.foreignLines := rfl
@[simp] theorem State.setInited_resets (s : State) : (s.setInited).resets = s.resets := rfl
@[simp] theorem State.setInited_decTexts (s : State) : (s.setInited).decTexts = s.decTexts := rfl

/-! ### `setBright` -/

@[simp] theorem State.setBright_inited (b : BitVec 3) (s : State) : (s.setBright b).inited = s.inited := rfl
@[simp] theorem State.setBright_bright (b : BitVec 3) (s : State) : (s.setBright b).bright = b := rfl
@[simp] theorem State.setBright_clk (b : BitVec 3) (s : State) : (s.setBright b).clk = s.clk := rfl
@[simp] theorem State.setBright_dio (b : BitVec 3) (s : State) : (s.setBright b).dio = s.dio := rfl
@[simp] theorem State.setBright_clkOut (b : BitVec 3) (s : State) : (s.setBright b).clkOut = s.clkOut := rfl
@[simp] theorem State.setBright_dioOut (b : BitVec 3) (s : State) : (s.setBright b).dioOut = s.dioOut := rfl
@[simp] theorem State.setBright_binding (b : BitVec 3) (s : State) : (s.setBright b).binding = s.binding := rfl
@[simp] theorem State.setBright_busy (b : BitVec 3) (s : State) : (s.setBright b).busy = s.busy := rfl
@[simp] theorem State.setBright_seqPos (b : BitVec 3) (s : State) : (s.setBright b).seqPos = s.seqPos := rfl
@[simp] theorem State.setBright_trace (b : BitVec 3) (s : State) : (s.setBright b).trace = s.trace := rfl
@[simp] theorem State.setBright_results (b : BitVec 3) (s : State) : (s.setBright b).results = s.results := rfl
@[simp] theorem State.setBright_inputs (b : BitVec 3) (s : State) : (s.setBright b).inputs = s.inputs := rfl
@[simp] theorem State.setBright_foreignLines (b : BitVec 3) (s : State) : (s.setBright b).foreignLines = s.foreignLines := rfl
@[simp] theorem State.setBright_resets (b : BitVec 3) (s : State) : (s.setBright b).resets = s.resets := rfl
@[simp] theorem State.setBright_decTexts (b : BitVec 3) (s : State) : (s.setBright b).decTexts = s.decTexts := rfl

/-! ### `bindLines` -/

@[simp] theorem State.bindLines_inited (c d : LineId) (s : State) : (s.bindLines c d).inited = s.inited := rfl
@[simp] theorem State.bindLines_bright (c d : LineId) (s : State) : (s.bindLines c d).bright = s.bright := rfl
@[simp] theorem State.bindLines_clk (c d : LineId) (s : State) : (s.bindLines c d).clk = s.clk := rfl
@[simp] theorem State.bindLines_dio (c d : LineId) (s : State) : (s.bindLines c d).dio = s.dio := rfl
@[simp] theorem State.bindLines_clkOut (c d : LineId) (s : State) : (s.bindLines c d).clkOut = true := rfl
@[simp] theorem State.bindLines_dioOut (c d : LineId) (s : State) : (s.bindLines c d).dioOut = true := rfl
@[simp] theorem State.bindLines_binding (c d : LineId) (s : State) : (s.bindLines c d).binding = some (c, d) := rfl
@[simp] theorem State.bindLines_busy (c d : LineId) (s : State) : (s.bindLines c d).busy = s.busy := rfl
@[simp] theorem State.bindLines_seqPos (c d : LineId) (s : State) : (s.bindLines c d).seqPos = s.seqPos := rfl
@[simp] theorem State.bindLines_trace (c d : LineId) (s : State) : (s.bindLines c d).trace = s.trace := rfl
@[simp] theorem State.bindLines_results (c d : LineId) (s : State) : (s.bindLines c d).results = s.results := rfl
@[simp] theorem State.bindLines_inputs (c d : LineId) (s : State) : (s.bindLines c d).inputs = s.inputs := rfl
@[simp] theorem State.bindLines_foreignLines (c d : LineId) (s : State) : (s.bindLines c d).foreignLines = s.foreignLines := rfl
@[simp] theorem State.bindLines_resets (c d : LineId) (s : State) : (s.bindLines c d).resets = s.resets := rfl
@[simp] theorem State.bindLines_decTexts (c d : LineId) (s : State) : (s.bindLines c d).decTexts = s.decTexts := rfl

/-! ### `deliver` -/

@[simp] theorem State.deliver_inited (r : Result) (s : State) : (s.deliver r).inited = s.inited := rfl
@[simp] theorem State.deliver_bright (r : Result) (s : State) : (s.deliver r).bright = s.bright := rfl
@[simp] theorem State.deliver_clk (r : Result) (s : State) : (s.deliver r).clk = s.clk := rfl
@[simp] theorem State.deliver_dio (r : Result) (s : State) : (s.deliver r).dio = s.dio := rfl
@[simp] theorem State.deliver_clkOut (r : Result) (s : State) : (s.deliver r).clkOut = s.clkOut := rfl
@[simp] theorem State.deliver_dioOut (r : Result) (s : State) : (s.deliver r).dioOut = s.dioOut := rfl
@[simp] theorem State.deliver_binding (r : Result) (s : State) : (s.deliver r).binding = s.binding := rfl
@[simp] theorem State.deliver_busy (r : Result) (s : State) : (s.deliver r).busy = s.busy := rfl
@[simp] theorem State.deliver_seqPos (r : Result) (s : State) : (s.deliver r).seqPos = s.seqPos := rfl
@[simp] theorem State.deliver_trace (r : Result) (s : State) : (s.deliver r).trace = s.trace := rfl
@[simp] theorem State.deliver_results (r : Result) (s : State) : (s.deliver r).results = s.results ++ [r] := rfl
@[simp] theorem State.deliver_inputs (r : Result) (s : State) : (s.deliver r).inputs = s.inputs := rfl
@[simp] theorem State.deliver_foreignLines (r : Result) (s : State) : (s.deliver r).foreignLines = s.foreignLines := rfl
@[simp] theorem State.deliver_resets (r : Result) (s : State) : (s.deliver r).resets = s.resets := rfl
@[simp] theorem State.deliver_decTexts (r : Result) (s : State) : (s.deliver r).decTexts = s.decTexts := rfl

/-! ### `resetInput` -/

@[simp] theorem State.resetInput_inited (s : State) : (s.resetInput).inited = false := rfl
@[simp] theorem State.resetInput_bright (s : State) : (s.resetInput).bright = Config.freeBright (s.resets + 1) := rfl
@[simp] theorem State.resetInput_clk (s : State) : (s.resetInput).clk = Config.freeClk (s.resets + 1) := rfl
@[simp] theorem State.resetInput_dio (s : State) : (s.resetInput).dio = Config.freeDio (s.resets + 1) := rfl
@[simp] theorem State.resetInput_clkOut (s : State) : (s.resetInput).clkOut = false := rfl
@[simp] theorem State.resetInput_dioOut (s : State) : (s.resetInput).dioOut = false := rfl
@[simp] theorem State.resetInput_binding (s : State) : (s.resetInput).binding = none := rfl
@[simp] theorem State.resetInput_busy (s : State) : (s.resetInput).busy = false := rfl
@[simp] theorem State.resetInput_seqPos (s : State) : (s.resetInput).seqPos = none := rfl
@[simp] theorem State.resetInput_trace (s : State) : (s.resetInput).trace = s.trace := rfl
@[simp] theorem State.resetInput_results (s : State) : (s.resetInput).results = s.results := rfl
@[simp] theorem State.resetInput_inputs (s : State) : (s.resetInput).inputs = s.inputs := rfl
@[simp] theorem State.resetInput_foreignLines (s : State) : (s.resetInput).foreignLines = s.foreignLines := rfl
@[simp] theorem State.resetInput_resets (s : State) : (s.resetInput).resets = s.resets + 1 := rfl
@[simp] theorem State.resetInput_decTexts (s : State) : (s.resetInput).decTexts = s.decTexts := rfl

/-! ### `emit` and `emitAll` -/

@[simp] theorem levelAfter_nil (l : Line) (v : Level) : levelAfter l [] v = v := rfl

@[simp] theorem levelAfter_wait (l : Line) (n : Nat) (es : List Event) (v : Level) :
    levelAfter l (.wait n :: es) v = levelAfter l es v := rfl

@[simp] theorem levelAfter_set (l m : Line) (u : Level) (es : List Event) (v : Level) :
    levelAfter l (.set m u :: es) v = levelAfter l es (if m = l then u else v) := rfl

theorem levelAfter_append (l : Line) (as bs : List Event) (v : Level) :
    levelAfter l (as ++ bs) v = levelAfter l bs (levelAfter l as v) := by
  induction as generalizing v with
  | nil => rfl
  | cons e es ih => cases e <;> simp [ih]

/-- Everything one event does. -/
theorem State.emit_eq (e : Event) (s : State) :
    s.emit e = { s with clk := levelAfter .clk [e] s.clk, dio := levelAfter .dio [e] s.dio,
                        trace := s.trace ++ [e], seqPos := s.seqPos.map (· + 1) } := by
  rcases e with ⟨_ | _, v⟩ | n <;> simp [State.emit, State.setLine]

/-- Everything a sequence of events does. -/
theorem State.emitAll_eq (es : List Event) (s : State) :
    s.emitAll es = { s with clk := levelAfter .clk es s.clk, dio := levelAfter .dio es s.dio,
                            trace := s.trace ++ es, seqPos := s.seqPos.map (· + es.length) } := by
  induction es generalizing s with
  | nil => simp [State.emitAll]
  | cons e es ih =>
    have h : ∀ l v, levelAfter l (e :: es) v = levelAfter l es (levelAfter l [e] v) := fun l v =>
      levelAfter_append l [e] es v
    simp [State.emitAll, ih, State.emit_eq, h, Function.comp_def, Nat.add_comm, Nat.add_left_comm]

@[simp] theorem State.emitAll_nil (s : State) : s.emitAll [] = s := rfl

theorem State.emitAll_append (as bs : List Event) (s : State) :
    s.emitAll (as ++ bs) = (s.emitAll as).emitAll bs := by
  induction as generalizing s with
  | nil => rfl
  | cons e es ih => exact ih _

theorem State.emit_eq_emitAll (e : Event) (s : State) : s.emit e = s.emitAll [e] := rfl

@[simp] theorem State.emitAll_inited (es : List Event) (s : State) : (s.emitAll es).inited = s.inited := by
  rw [State.emitAll_eq]
@[simp] theorem State.emitAll_bright (es : List Event) (s : State) : (s.emitAll es).bright = s.bright := by
  rw [State.emitAll_eq]
@[simp] theorem State.emitAll_clk (es : List Event) (s : State) : (s.emitAll es).clk = levelAfter .clk es s.clk := by
  rw [State.emitAll_eq]
@[simp] theorem State.emitAll_dio (es : List Event) (s : State) : (s.emitAll es).dio = levelAfter .dio es s.dio := by
  rw [State.emitAll_eq]
@[simp] theorem State.emitAll_clkOut (es : List Event) (s : State) : (s.emitAll es).clkOut = s.clkOut := by
  rw [State.emitAll_eq]
@[simp] theorem State.emitAll_dioOut (es : List Event) (s : State) : (s.emitAll es).dioOut = s.dioOut := by
  rw [State.emitAll_eq]
@[simp] theorem State.emitAll_binding (es : List Event) (s : State) : (s.emitAll es).binding = s.binding := by
  rw [State.emitAll_eq]
@[simp] theorem State.emitAll_busy (es : List Event) (s : State) : (s.emitAll es).busy = s.busy := by
  rw [State.emitAll_eq]
@[simp] theorem State.emitAll_seqPos (es : List Event) (s : State) : (s.emitAll es).seqPos = s.seqPos.map (· + es.length) := by
  rw [State.emitAll_eq]
@[simp] theorem State.emitAll_trace (es : List Event) (s : State) : (s.emitAll es).trace = s.trace ++ es := by
  rw [State.emitAll_eq]
@[simp] theorem State.emitAll_results (es : List Event) (s : State) : (s.emitAll es).results = s.results := by
  rw [State.emitAll_eq]
@[simp] theorem State.emitAll_inputs (es : List Event) (s : State) : (s.emitAll es).inputs = s.inputs := by
  rw [State.emitAll_eq]
@[simp] theorem State.emitAll_foreignLines (es : List Event) (s : State) : (s.emitAll es).foreignLines = s.foreignLines := by
  rw [State.emitAll_eq]
@[simp] theorem State.emitAll_resets (es : List Event) (s : State) : (s.emitAll es).resets = s.resets := by
  rw [State.emitAll_eq]
@[simp] theorem State.emitAll_decTexts (es : List Event) (s : State) : (s.emitAll es).decTexts = s.decTexts := by
  rw [State.emitAll_eq]

/-! ### Reset -/

/-- Everything a reset inside an operation does: the trace keeps the events before it (R147). -/
theorem State.cutShort_eq (k : Nat) (whole : List Event) (s : State) :
    s.cutShort k whole = { s.resetInput with trace := s.trace ++ whole.take k } := by
  simp [State.cutShort, State.resetInput]

end Sys2Proof.Machine
end

