-- ==== Sys2Proof/Laws/Wire.lean ====
section
/-! SUPPORT. What the primitives and the frames do, each said once: the events they add and the levels they leave. -/

namespace Sys2Proof.Machine

/-- A byte's events, written out. -/
theorem byteT_eq (v : Byte) :
    byteT v = bitT (v.getLsbD 0) ++ bitT (v.getLsbD 1) ++ bitT (v.getLsbD 2) ++ bitT (v.getLsbD 3) ++
      bitT (v.getLsbD 4) ++ bitT (v.getLsbD 5) ++ bitT (v.getLsbD 6) ++ bitT (v.getLsbD 7) ++ ackT := rfl

@[simp] theorem byteT_length (v : Byte) : (byteT v).length = 54 := rfl

@[simp] theorem frameT_length (bs : List Byte) : (frameT bs).length = 15 + 54 * bs.length := by
  simp only [frameT, List.length_append, List.length_flatMap, byteT_length, List.map_const', List.sum_replicate]
  simp [startT, stopT]; omega

/-! ## Levels on exit (41_wire_primitives.md R87) -/

@[simp] theorem levelAfter_clk_startT (v : Level) : levelAfter .clk startT v = false := rfl
@[simp] theorem levelAfter_dio_startT (v : Level) : levelAfter .dio startT v = false := rfl
@[simp] theorem levelAfter_clk_stopT (v : Level) : levelAfter .clk stopT v = true := rfl
@[simp] theorem levelAfter_dio_stopT (v : Level) : levelAfter .dio stopT v = true := rfl
@[simp] theorem levelAfter_clk_byteT (b : Byte) (v : Level) : levelAfter .clk (byteT b) v = false := rfl
@[simp] theorem levelAfter_dio_byteT (b : Byte) (v : Level) : levelAfter .dio (byteT b) v = b.getLsbD 7 := rfl

@[simp] theorem levelAfter_clk_frameT (bs : List Byte) (v : Level) : levelAfter .clk (frameT bs) v = true := by
  simp [frameT, levelAfter_append]

@[simp] theorem levelAfter_dio_frameT (bs : List Byte) (v : Level) : levelAfter .dio (frameT bs) v = true := by
  simp [frameT, levelAfter_append]

/-! ## The permutation on the lengths DATA_XFER takes (42_command_frames.md R92, R96) -/

theorem permuted_six (s0 s1 s2 s3 s4 s5 : Byte) :
    permuted [s0, s1, s2, s3, s4, s5] = [s2, s1, s0, s5, s4, s3] := by
  simp [permuted, perm, List.range, List.range.loop]

theorem permuted_three (s0 s1 s2 : Byte) : permuted [s0, s1, s2] = [s2, s1, s0] := by
  simp [permuted, perm, List.range, List.range.loop]

/-! ## Operations as sequences of events -/

theorem sendBytes_eq (bs : List Byte) (s : State) : sendBytes bs s = s.emitAll (bs.flatMap byteT) := by
  unfold sendBytes
  induction bs generalizing s with
  | nil => rfl
  | cons b bs ih => rw [List.foldl_cons, ih, List.flatMap_cons, State.emitAll_append, sendByte]

/-- Three steps of a frame are the frame (R94). -/
theorem frame_run (bs : List Byte) (s : State) :
    stopCond (sendBytes bs (startCond s)) = s.emitAll (frameT bs) := by
  simp only [stopCond, sendBytes_eq, startCond, frameT, State.emitAll_append]

theorem dataCmd_eq (s : State) : dataCmd s = s.emitAll dataCmdT := by
  rw [dataCmdT, ← frame_run]; rfl

theorem dispCtrl_eq (s : State) : dispCtrl s = s.emitAll (dispCtrlT s.bright) := by
  have h : (startCond s).bright = s.bright := by simp [startCond]
  have := frame_run [dispByte s.bright] s
  simpa [dispCtrl, dispCtrlT, sendBytes] using this

theorem dataXfer_eq (p : Position) (segs : Segs) (s : State) : dataXfer p segs s = s.emitAll (dataXferT p segs) := by
  rw [dataXferT, ← frame_run, dataXfer, sendBytes, sendBytes, List.foldl_cons]

/-- What an operation that emits a fixed sequence answers. -/
theorem running_emitAll (es : List Event) (s : State) :
    running (State.emitAll es) s = .next { s with
      clk := levelAfter .clk es s.clk, dio := levelAfter .dio es s.dio,
      trace := s.trace ++ es, busy := false, seqPos := none } := by
  simp [running, State.finish, State.accept, State.emitAll_eq]

/-- An operation that runs answers a next state, and no other outcome. -/
theorem running_next {run : State → State} {s t : State} (h : running run s = .next t) : t = (run s.accept).finish := by
  simpa [running, eq_comm] using h

end Sys2Proof.Machine
end

