-- ==== Sys2Proof/Laws/HostOps.lean ====
section
/-! SUPPORT. What the host operations do once their checks have passed, each said once. -/

namespace Sys2Proof.Machine

/-- INIT after its checks (43_host_operations.md R100). -/
theorem running_initRun (c d : LineId) (b : BitVec 3) (s : State) :
    running (initRun c d b) s = .next { s with
      inited := true, bright := b, clk := true, dio := true, clkOut := true, dioOut := true, binding := some (c, d),
      trace := s.trace ++ initT b, busy := false, seqPos := none } := by
  simp [running, initRun, State.emit_eq_emitAll, dataCmd_eq, dispCtrl_eq, State.emitAll_eq, State.finish, State.accept,
    State.setBright, State.setInited, State.bindLines, initT, dataCmdT, dispCtrlT]

/-- SET_BRIGHTNESS after its check (R101). -/
theorem running_setBrightnessRun (b : BitVec 3) (s : State) :
    running (setBrightnessRun b) s = .next { s with
      bright := b, clk := true, dio := true, trace := s.trace ++ setBrightnessT b,
      results := s.results ++ [.byte (b.setWidth 8)], busy := false, seqPos := none } := by
  simp [running, setBrightnessRun, dataCmd_eq, dispCtrl_eq, State.emitAll_eq, State.finish, State.accept,
    State.setBright, State.deliver, setBrightnessT, dataCmdT, dispCtrlT]

/-- WRITE after its checks (R102). -/
theorem running_writeRun (segs : Segs) (p : Position) (s : State) :
    running (writeRun segs p) s = .next { s with
      clk := true, dio := true, trace := s.trace ++ writeT p segs s.bright, busy := false, seqPos := none } := by
  simp [running, writeRun, dataCmd_eq, dispCtrl_eq, dataXfer_eq, State.emitAll_eq, State.finish, State.accept,
    writeT, dataCmdT, dispCtrlT, dataXferT]

/-- What WRITE answers once its checks have passed. -/
theorem writeOp_run {segs : Segs} {s : State} (pos : Int) (hi : s.inited = true) (hc : segCountOk segs = true) :
    writeOp segs pos s = .next { s with
      clk := true, dio := true, trace := s.trace ++ writeT (clampPosition pos) segs s.bright,
      busy := false, seqPos := none } := by
  simp only [writeOp, hi, hc, Bool.true_eq_false, if_false, running_writeRun]

/-- Everything WRITE can answer with a next state. -/
theorem writeOp_next {segs : Segs} {pos : Int} {s t : State} (h : writeOp segs pos s = .next t) :
    s.inited = true ∧ segCountOk segs = true ∧
      t = { s with clk := true, dio := true, trace := s.trace ++ writeT (clampPosition pos) segs s.bright,
                   busy := false, seqPos := none } := by
  unfold writeOp at h
  split at h
  · cases h
  · split at h
    · cases h
    · rw [running_writeRun] at h
      simp_all

/-- Everything SHOW can answer with a next state: it is the WRITE of its text at position 0. -/
theorem showOp_next {text : Text} {s t : State} (h : showOp text s = .next t) :
    s.inited = true ∧ ∃ segs, encodeString text = some segs ∧ writeOp segs 0 s = .next t := by
  unfold showOp at h
  split at h
  · cases h
  · split at h
    · cases h
    · exact ⟨by simp_all, _, by assumption, h⟩

end Sys2Proof.Machine
end

