-- ==== Sys2Proof/Laws/Exec.lean ====
section
/-! SUPPORT. Everything `exec` can answer with a next state, said once for every operation. -/

namespace Sys2Proof.Machine

/-- The state after an operation that emits `es`, leaves the levels `c` and `d`, and is finished. -/
def State.emitted (s : State) (c d : Level) (es : List Event) : State :=
  { s with clk := c, dio := d, trace := s.trace ++ es, busy := false, seqPos := none }

theorem showOp_emitted {text : Text} {s t : State} (h : showOp text s = .next t) :
    s.inited = true ∧ ∃ segs, encodeString text = some segs ∧ segCountOk segs = true ∧
      t = s.emitted true true (writeT 0 segs s.bright) := by
  obtain ⟨hi, segs, he, hw⟩ := showOp_next h
  obtain ⟨-, hc, ht⟩ := writeOp_next hw
  exact ⟨hi, segs, he, hc, ht⟩

/-- The next state of an operation, when it has one. -/
theorem exec_next {i : Instr} {s t : State} (h : exec i s = .next t) :
    match i with
    | .cmdData => t = s.emitted false false (byteT Config.cmdData)
    | .cmdAddr p => t = s.emitted false ((addrByte p).getLsbD 7) (byteT (addrByte p))
    | .cmdDisp b => t = s.emitted false ((dispByte b).getLsbD 7) (byteT (dispByte b))
    | .init c d v =>
      s.inited = false ∧ lineOr Config.clkLine c ≠ lineOr Config.dioLine d ∧
      lineOr Config.clkLine c ∉ s.foreignLines ∧ lineOr Config.dioLine d ∉ s.foreignLines ∧
      t = { s.emitted true true (initT (initBrightness v)) with
        inited := true, bright := initBrightness v, clkOut := true, dioOut := true,
        binding := some (lineOr Config.clkLine c, lineOr Config.dioLine d) }
    | .setBrightness v =>
      s.inited = true ∧
      t = { s.emitted true true (setBrightnessT (maskBrightness v)) with
        bright := maskBrightness v, results := s.results ++ [.byte ((maskBrightness v).setWidth 8)] }
    | .write segs pos =>
      s.inited = true ∧ segCountOk segs = true ∧
      t = s.emitted true true (writeT (clampPosition pos) segs s.bright)
    | .showText text _ =>
      s.inited = true ∧ ∃ segs, encodeString text = some segs ∧ segCountOk segs = true ∧
        t = s.emitted true true (writeT 0 segs s.bright)
    | .showHex v =>
      s.inited = true ∧ ∃ segs, encodeString (hexFmt (hexValue v)) = some segs ∧ segCountOk segs = true ∧
        t = s.emitted true true (writeT 0 segs s.bright)
    | .showNumber v =>
      s.inited = true ∧ ∃ segs, encodeString (decFmt s.decTexts v) = some segs ∧ segCountOk segs = true ∧
        t = s.emitted true true (writeT 0 segs s.bright)
    | .encodeDigit v => t = s.deliver (.byte (encodeDigit v))
    | .encodeChar ch => t = s.deliver (.byte (encodeChar ch))
    | .encodeString text => ∃ segs, encodeString text = some segs ∧ t = s.deliver (.seq segs)
    | .start => t = s.emitted false false startT
    | .stop => t = s.emitted true true stopT
    | .writeByte v => t = s.emitted false (v.getLsbD 7) (byteT v)
    | .dataCmd => t = s.emitted true true dataCmdT
    | .dispCtrl => t = s.emitted true true (dispCtrlT s.bright) := by
  have fixed : ∀ {es : List Event}, running (State.emitAll es) s = .next t →
      t = s.emitted (levelAfter .clk es s.clk) (levelAfter .dio es s.dio) es := fun hr => by
    rw [running_emitAll] at hr
    injection hr with hr
    exact hr.symm
  cases i with
  | cmdData => exact fixed h
  | cmdAddr p => exact fixed h
  | cmdDisp b => exact fixed h
  | init c d v =>
    simp only [exec, execInit] at h
    split_ifs at h with h1 h2 h3
    rw [running_initRun] at h
    injection h with h
    exact ⟨by simpa using h1, h2, fun hc => h3 (.inl hc), fun hd => h3 (.inr hd), h.symm⟩
  | setBrightness v =>
    simp only [exec, execSetBrightness] at h
    split_ifs at h with h1
    rw [running_setBrightnessRun] at h
    injection h with h
    exact ⟨by simpa using h1, h.symm⟩
  | write segs pos => exact writeOp_next h
  | showText text colon => exact showOp_emitted h
  | showHex v => exact showOp_emitted h
  | showNumber v => exact showOp_emitted h
  | encodeDigit v => injection h with h; exact h.symm
  | encodeChar ch => injection h with h; exact h.symm
  | encodeString text =>
    simp only [exec, execEncodeString] at h
    split at h
    · rename_i segs he
      injection h with h
      exact ⟨segs, he, h.symm⟩
    · cases h
  | start => exact fixed h
  | stop => exact fixed h
  | writeByte v => exact fixed h
  | dataCmd =>
    simp only [exec, execDataCmd, running, dataCmd_eq] at h
    exact fixed h
  | dispCtrl =>
    simp only [exec, execDispCtrl, running, dispCtrl_eq] at h
    exact fixed h

end Sys2Proof.Machine
end

