-- ==== Sys2Proof/Laws/Observe.lean ====
section
/-! SUPPORT. What the observer makes of a start condition, a byte and a stop condition. -/

namespace Sys2Proof.Machine

theorem seeAll_append (o : Observer) (a b : List Event) : o.seeAll (a ++ b) = (o.seeAll a).seeAll b := by
  simp [Observer.seeAll]

/-- A data bit is one clock pulse, with the bit on the data line. -/
theorem seeAll_bitT (d : Option Level) (f : OpenFrame) (fs : List (List Byte)) (b : Level) :
    (⟨some false, d, some f, fs⟩ : Observer).seeAll (bitT b) = ⟨some false, some b, some (f.pulse b), fs⟩ := by
  simp [Observer.seeAll, bitT, Observer.see, wait10, c1, c0]

/-- The acknowledgment pulse is one clock pulse. -/
theorem seeAll_ackT (d : Level) (f : OpenFrame) (fs : List (List Byte)) :
    (⟨some false, some d, some f, fs⟩ : Observer).seeAll ackT = ⟨some false, some d, some (f.pulse d), fs⟩ := by
  simp [Observer.seeAll, ackT, Observer.see, wait10, c1, c0]

/-- The bits of a byte in the order they are sent make the byte. -/
theorem byteOfBits_byte : ∀ v : Byte,
    byteOfBits [v.getLsbD 0, v.getLsbD 1, v.getLsbD 2, v.getLsbD 3, v.getLsbD 4, v.getLsbD 5, v.getLsbD 6,
      v.getLsbD 7] = v := by decide

/-- A byte inside a frame is read as itself. -/
theorem seeAll_byteT (d : Option Level) (bytes : List Byte) (fs : List (List Byte)) (v : Byte) :
    (⟨some false, d, some ⟨0, [], bytes⟩, fs⟩ : Observer).seeAll (byteT v) =
      ⟨some false, some (v.getLsbD 7), some ⟨0, [], bytes ++ [v]⟩, fs⟩ := by
  rw [byteT_eq]
  simp only [seeAll_append, seeAll_bitT, seeAll_ackT, OpenFrame.pulse]
  have := byteOfBits_byte v
  simp only [Nat.reduceEqDiff, if_false, if_true, Nat.reduceAdd, List.nil_append, List.cons_append, this]

/-- A start condition outside a frame opens one, whatever levels the observer has seen. -/
theorem seeAll_startT (o : Observer) (hf : o.frame = none) :
    o.seeAll startT = ⟨some false, some false, some ⟨0, [], []⟩, o.done⟩ := by
  obtain ⟨c, d, f, fs⟩ := o
  subst hf
  rcases c with _ | _ | _ <;> rcases d with _ | _ | _ <;> rfl

/-- A stop condition closes the frame. -/
theorem seeAll_stopT (d : Option Level) (bytes : List Byte) (fs : List (List Byte)) :
    (⟨some false, d, some ⟨0, [], bytes⟩, fs⟩ : Observer).seeAll stopT =
      ⟨some true, some true, none, fs ++ [bytes]⟩ := by
  simp [Observer.seeAll, stopT, Observer.see, OpenFrame.pulse, wait10, c1, c0, d0, d1]

end Sys2Proof.Machine
end

