-- ==== Sys2Proof/Laws/PerInstr.lean ====
section
/-! SUPPORT. Facts about every operation as syntax, one lemma for each constructor. -/

namespace Sys2Proof.Laws.FirstByte

/-- The first byte of an operation's encoding announces the form it is encoded in. -/
def Statement (i : Instr) : Prop := ∃ b rest, encode i = b :: rest ∧ kindOf b = some (kindOfInstr i)

theorem cmdData : Statement .cmdData := ⟨_, _, rfl, by decide⟩

theorem cmdAddr (pos : Position) : Statement (.cmdAddr pos) := ⟨_, _, rfl, by revert pos; decide⟩

theorem cmdDisp (b : BitVec 3) : Statement (.cmdDisp b) := ⟨_, _, rfl, by revert b; decide⟩

theorem init (c d : Option LineId) (v : Int) : Statement (.init c d v) := ⟨_, _, rfl, by rfl⟩

theorem setBrightness (v : Int) : Statement (.setBrightness v) := ⟨_, _, rfl, by rfl⟩

theorem write (segs : Segs) (pos : Int) : Statement (.write segs pos) := by
  by_cases h : segs.length = 6
  · exact ⟨0x02#8, segs ++ [intByte pos], by simp [encode, h], by simp only [kindOfInstr, if_pos h]; rfl⟩
  · exact ⟨0x12#8, counted segs ++ [intByte pos], by simp [encode, h],
      by simp only [kindOfInstr, if_neg h]; rfl⟩

theorem showText (text : Text) (colon : Bool) : Statement (.showText text colon) := ⟨_, _, rfl, by rfl⟩

theorem showHex (v : Int) : Statement (.showHex v) := ⟨_, _, rfl, by rfl⟩

theorem showNumber (v : Int) : Statement (.showNumber v) := ⟨_, _, rfl, by rfl⟩

theorem encodeDigit (v : Int) : Statement (.encodeDigit v) := ⟨_, _, rfl, by rfl⟩

theorem encodeChar (ch : Byte) : Statement (.encodeChar ch) := ⟨_, _, rfl, by rfl⟩

theorem encodeString (text : Text) : Statement (.encodeString text) := ⟨_, _, rfl, by rfl⟩

theorem start : Statement .start := ⟨_, _, rfl, by rfl⟩

theorem stop : Statement .stop := ⟨_, _, rfl, by rfl⟩

theorem writeByte (v : Byte) : Statement (.writeByte v) := ⟨_, _, rfl, by rfl⟩

theorem dataCmd : Statement .dataCmd := ⟨_, _, rfl, by rfl⟩

theorem dispCtrl : Statement .dispCtrl := ⟨_, _, rfl, by rfl⟩

end Sys2Proof.Laws.FirstByte
end

