-- ==== Sys2Proof/Laws/Port.lean ====
section
/-! SUPPORT. What a step can do, said once. -/

namespace Sys2Proof.Machine

/-- A request that is admitted has bytes that are the operation, and the host issues no operation of the engine's own. -/
theorem admitted_ok {who : Issuer} {bytes : List Byte} {i : Instr} (h : admitted who bytes = .ok i) :
    (∃ rest, decode bytes = .ok (i, rest)) ∧ ¬ (who = .host ∧ engineOnly i = true) := by
  unfold admitted at h
  split at h
  · cases h
  · rename_i j rest hd
    split at h
    · cases h
    · cases h
      exact ⟨⟨rest, hd⟩, by assumption⟩

theorem runAdmitted_next {i : Instr} {cut : Option Nat} {s t : State} (h : runAdmitted i cut s = .next t) :
    ∃ u, exec i s = .next u ∧ t = settled cut s u := by
  unfold runAdmitted at h
  split at h
  · rename_i u hu
    exact ⟨u, hu, by cases h; rfl⟩
  · cases h
  · cases h

theorem runRequest_next {who : Issuer} {bytes : List Byte} {cut : Option Nat} {s t : State}
    (h : runRequest who bytes cut s = .next t) :
    ∃ i u, admitted who bytes = .ok i ∧ exec i s = .next u ∧ t = settled cut s u := by
  unfold runRequest at h
  split at h
  · cases h
  · rename_i i hi
    obtain ⟨u, hu, ht⟩ := runAdmitted_next h
    exact ⟨i, u, hi, hu, ht⟩

/-- A step that takes an admitted request runs it. -/
theorem step_request {s : State} {who : Issuer} {bytes : List Byte} {cut : Option Nat} {rest : List Input} {i : Instr}
    (hb : s.busy = false) (hi : s.inputs = .request who bytes cut :: rest) (ha : admitted who bytes = .ok i) :
    step s = runAdmitted i cut { s with inputs := rest } := by
  unfold step takeInput
  rw [hi]
  simp only [hb, Bool.false_eq_true, if_false, runRequest, ha]

/-- Without a reset inside it, an admitted operation answers what `exec` answers. -/
theorem runAdmitted_none (i : Instr) (s : State) : runAdmitted i none s = exec i s := by
  unfold runAdmitted
  cases exec i s <;> rfl

/-- Everything a step can answer with a next state: the engine waits, a reset falls while it is idle, or an admitted
operation runs to its end or to the reset that cuts it. -/
theorem step_next {s t : State} (h : step s = .next t) :
    (t = s ∧ (s.inputs = [] ∨ s.busy = true)) ∨
    (∃ rest, s.inputs = .reset :: rest ∧ t = ({ s with inputs := rest } : State).resetInput) ∨
    (∃ who bytes cut rest i u, s.inputs = .request who bytes cut :: rest ∧ s.busy = false ∧
      admitted who bytes = .ok i ∧ exec i { s with inputs := rest } = .next u ∧
      t = settled cut { s with inputs := rest } u) := by
  unfold step takeInput at h
  split at h
  · cases h
    exact .inl ⟨rfl, .inl (by assumption)⟩
  · rename_i rest hs
    cases h
    exact .inr (.inl ⟨rest, hs, rfl⟩)
  · rename_i who bytes cut rest hs
    split at h
    · cases h
      exact .inl ⟨rfl, .inr (by assumption)⟩
    · obtain ⟨i, u, hi, hu, ht⟩ := runRequest_next h
      exact .inr (.inr ⟨who, bytes, cut, rest, i, u, hs, by simp_all, hi, hu, ht⟩)

end Sys2Proof.Machine
end

