-- ==== Sys2Proof/Laws/Reference.lean ====
section
/-! SUPPORT. How many digits a number has, and what characters they are. -/

namespace Sys2Proof.Machine

theorem digits_lt {base : Nat} (hb : 0 < base) : ∀ (fuel n : Nat), ∀ d ∈ digits base fuel n, d < base
  | 0, _, _, h => by simp [digits] at h
  | fuel + 1, n, d, h => by
    unfold digits at h
    split at h
    · simp_all
    · rcases List.mem_append.mp h with h | h
      · exact digits_lt hb fuel _ d h
      · simp only [List.mem_singleton] at h
        exact h ▸ Nat.mod_lt _ hb

/-- A number below `base ^ k` has at most `k` digits, and no other number has so few, when the fuel is enough. -/
theorem digits_length_le {base : Nat} (hb : 2 ≤ base) :
    ∀ (fuel n k : Nat), n < fuel → ((digits base fuel n).length ≤ k + 1 ↔ n < base ^ (k + 1))
  | 0, _, _, h => absurd h (Nat.not_lt_zero _)
  | fuel + 1, n, k, h => by
    unfold digits
    split
    · rename_i hn
      have : base ≤ base ^ (k + 1) := Nat.le_self_pow (Nat.succ_ne_zero k) base
      simp only [List.length_singleton]
      omega
    · rename_i hn
      have hlt : n / base < n := Nat.div_lt_self (by omega) (by omega)
      simp only [List.length_append, List.length_singleton]
      cases k with
      | zero =>
        have : (digits base fuel (n / base)).length ≠ 0 := by
          cases fuel with
          | zero => omega
          | succ f => unfold digits; split <;> simp
        simp only [Nat.zero_add, Nat.pow_one]
        omega
      | succ k =>
        have ih := digits_length_le hb fuel (n / base) k (by omega)
        rw [Nat.pow_succ, ← Nat.div_lt_iff_lt_mul (by omega)]
        omega

theorem digitCode_ne_dot : ∀ d < 16, digitCode d ≠ dot := by decide

end Sys2Proof.Machine
end

