-- ==== Sys2Proof/Laws/Safety.lean ====
section
/-! SUPPORT. How level changes are held apart across a start condition, a byte and a stop condition, and over runs
(41_wire_primitives.md R88). -/

namespace Sys2Proof.Machine

/-- Two sequences in a row, when the second may follow a level change at once. -/
theorem heldApart_append (as bs : List Event) : ∀ (clk dio fresh : Level),
    heldApart clk dio fresh as = true →
    (∀ f, heldApart (levelAfter .clk as clk) (levelAfter .dio as dio) f bs = true) →
    heldApart clk dio fresh (as ++ bs) = true := by
  induction as with
  | nil => exact fun _ _ fresh _ hb => hb fresh
  | cons e es ih =>
    intro clk dio fresh ha hb
    rcases e with ⟨_ | _, v⟩ | n
    · simp only [List.cons_append, heldApart] at ha ⊢
      split
      · rename_i hv
        rw [if_pos hv] at ha
        exact ih clk dio fresh ha (by simpa [hv] using hb)
      · rename_i hv
        rw [if_neg hv, Bool.and_eq_true] at ha
        rw [Bool.and_eq_true]
        exact ⟨ha.1, ih v dio true ha.2 (by simpa using hb)⟩
    · simp only [List.cons_append, heldApart] at ha ⊢
      split
      · rename_i hv
        rw [if_pos hv] at ha
        exact ih clk dio fresh ha (by simpa [hv] using hb)
      · rename_i hv
        rw [if_neg hv, Bool.and_eq_true] at ha
        rw [Bool.and_eq_true]
        exact ⟨ha.1, ih clk v true ha.2 (by simpa using hb)⟩
    · exact ih clk dio false ha (by simpa using hb)

/-- A front of a sequence holds apart what the whole does. -/
theorem heldApart_of_append (as bs : List Event) : ∀ (clk dio fresh : Level),
    heldApart clk dio fresh (as ++ bs) = true → heldApart clk dio fresh as = true := by
  induction as with
  | nil => exact fun _ _ _ _ => rfl
  | cons e es ih =>
    intro clk dio fresh h
    rcases e with ⟨_ | _, v⟩ | n
    · simp only [List.cons_append, heldApart] at h ⊢
      split
      · rename_i hv
        exact ih _ _ _ (by simpa only [if_pos hv] using h)
      · rename_i hv
        rw [if_neg hv, Bool.and_eq_true] at h
        rw [Bool.and_eq_true]
        exact ⟨h.1, ih _ _ _ h.2⟩
    · simp only [List.cons_append, heldApart] at h ⊢
      split
      · rename_i hv
        exact ih _ _ _ (by simpa only [if_pos hv] using h)
      · rename_i hv
        rw [if_neg hv, Bool.and_eq_true] at h
        rw [Bool.and_eq_true]
        exact ⟨h.1, ih _ _ _ h.2⟩
    · exact ih _ _ _ h

theorem heldApart_startT (fresh : Bool) (es : List Event) :
    heldApart true true fresh (startT ++ es) = heldApart false false false es := by
  cases fresh <;> rfl

theorem heldApart_bitT (d b : Level) (es : List Event) :
    heldApart false d false (bitT b ++ es) = heldApart false b false es := by
  cases d <;> cases b <;> rfl

theorem heldApart_ackT (d : Level) (es : List Event) :
    heldApart false d false (ackT ++ es) = heldApart false d false es := by
  cases d <;> rfl

theorem heldApart_stopT (d : Level) (es : List Event) :
    heldApart false d false (stopT ++ es) = heldApart true true true es := by
  cases d <;> rfl

theorem heldApart_byteT (d : Level) (v : Byte) (es : List Event) :
    heldApart false d false (byteT v ++ es) = heldApart false (v.getLsbD 7) false es := by
  rw [byteT_eq]
  simp only [List.append_assoc, heldApart_bitT, heldApart_ackT]

/-- A front of a run is a run. -/
theorem HeldRun.take {run : List Event} (h : HeldRun run) (k : Nat) : HeldRun (run.take k) := by
  obtain h | ⟨rest, rfl, h⟩ := h
  · exact .inl ((List.take_prefix k run).trans h)
  · rcases Nat.le_total k 3 with hk | hk
    · exact .inl (by rw [List.take_append_of_le_length (by simpa using hk)]; exact List.take_prefix _ _)
    · refine .inr ⟨rest.take (k - 3), ?_, heldApart_of_append _ (rest.drop (k - 3)) _ _ _ (by simpa using h)⟩
      rw [List.take_append, List.take_of_length_le (by simpa using hk)]
      rfl

/-- One run more. -/
theorem HeldThroughout.snoc {n : Nat} {trace run : List Event} (h : HeldThroughout n trace) (hr : HeldRun run) :
    HeldThroughout (n + 1) (trace ++ run) := by
  obtain ⟨runs, hl, rfl, hs⟩ := h
  exact ⟨runs ++ [run], by simpa using hl, by simp, List.forall_mem_append.2 ⟨hs, by simpa using hr⟩⟩

theorem HeldThroughout.mono {n m : Nat} {trace : List Event} (h : HeldThroughout n trace) (hn : n ≤ m) :
    HeldThroughout m trace := by
  obtain ⟨runs, hl, ht⟩ := h
  exact ⟨runs, hl.trans hn, ht⟩

/-- No run: no event. -/
theorem HeldThroughout.eq_nil {trace : List Event} (h : HeldThroughout 0 trace) : trace = [] := by
  obtain ⟨runs, hl, rfl, -⟩ := h
  simp [List.length_eq_zero_iff.1 (Nat.le_zero.1 hl)]

/-- More events of the same run, which end with both lines high again. -/
theorem HeldSinceInit.append {rest more : List Event} (h : HeldSinceInit rest)
    (hm : ∀ fresh, heldApart true true fresh more = true) (hc : levelAfter .clk more true = true)
    (hd : levelAfter .dio more true = true) : HeldSinceInit (rest ++ more) where
  apart := heldApart_append _ _ _ _ _ h.apart (by rw [h.clkHigh, h.dioHigh]; exact hm)
  clkHigh := by rw [levelAfter_append, h.clkHigh, hc]
  dioHigh := by rw [levelAfter_append, h.dioHigh, hd]

end Sys2Proof.Machine
end

