-- ==== Sys2Proof/Tests/Slice0.lean ====
section
/-! SUPPORT. Tests. Expected results are the spec's own: encodings of 30_encoding.md and spec/opcode_table.json, vectors
S1 to S11, V1 to V114 and programs P1 to P7 of 95_test_vectors.md, and the tables of the rules named. After them, for
each statement with hypotheses, a state and operands that meet them. -/

namespace Sys2Proof.Tests

open Sys2Proof.Machine

/-! ## Helpers -/

/-- The state `(1, b, 1, 1)` of the vectors, with `DEC_FMT_REF`'s texts for 7 and 1234567. -/
def ready (b : BitVec 3) : State where
  inited := true
  bright := b
  clk := true
  dio := true
  clkOut := true
  dioOut := true
  binding := some (10, 11)
  busy := false
  seqPos := none
  trace := []
  results := []
  inputs := []
  foreignLines := []
  resets := 0
  decTexts := [(7, [0x20#8, 0x20#8, 0x20#8, 0x20#8, 0x20#8, 0x37#8]),
    (1234567, [0x31#8, 0x32#8, 0x33#8, 0x34#8, 0x35#8, 0x36#8, 0x37#8])]

/-- A state before INIT, its levels and brightness given. -/
def unready (b : BitVec 3) (c d : Level) : State :=
  { ready b with inited := false, clk := c, dio := d, clkOut := false, dioOut := false, binding := none }

/-- A state with something presented to it. -/
def asked (s : State) (ins : List Input) : State := { s with inputs := ins }

/-- The state an outcome goes on to. -/
def after : Outcome → Option State
  | .next s => some s
  | .fault _ => none
  | .refused _ => none

/-- The reason an outcome is refused for. -/
def reason : Outcome → Option Refusal
  | .next _ => none
  | .fault _ => none
  | .refused r => some r

/-- Wire bytes, number of events and end state `(INITED, BRIGHT, CLK, DIO)`: what the vectors of section 5 give. -/
structure Seen where
  frames : List (List Byte)
  events : Nat
  inited : Bool
  bright : BitVec 3
  clk : Level
  dio : Level
  deriving DecidableEq, Repr

/-- What is seen of an outcome. -/
def seen (o : Outcome) : Option Seen :=
  (after o).map fun s => ⟨observe s.trace, s.trace.length, s.inited, s.bright, s.clk, s.dio⟩

/-- The events of `BIT_T(1)` and `BIT_T(0)`, V64 and V65. -/
def one : List Event := [.set .dio true, .wait 10, .set .clk true, .wait 10, .set .clk false, .wait 10]
def zero : List Event := [.set .dio false, .wait 10, .set .clk true, .wait 10, .set .clk false, .wait 10]

/-- V66. -/
def ack : List Event := [.set .clk false, .wait 10, .set .clk true, .wait 10, .set .clk false, .wait 10]

/-- V60 and V62. -/
def startEvents : List Event :=
  [.set .clk true, .wait 10, .set .dio true, .wait 10, .set .dio false, .wait 10, .set .clk false, .wait 10]
def stopEvents : List Event :=
  [.set .clk false, .wait 10, .set .dio false, .wait 10, .set .clk true, .wait 10, .set .dio true]

/-! ## WellFormed: each check refuses an ill-formed term -/

theorem test_wf_init_line : (Instr.init (some 0) (some 1) 7).wf = false := by decide
theorem test_wf_init_line_wide : (Instr.init (some 1) (some 256) 7).wf = false := by decide
theorem test_wf_init_brightness : (Instr.init none none 256).wf = false := by decide
theorem test_wf_setBrightness : (Instr.setBrightness (-1)).wf = false := by decide
theorem test_wf_write_pos : (Instr.write [1#8, 2#8, 3#8] 256).wf = false := by decide
theorem test_wf_showHex : (Instr.showHex 65536).wf = false := by decide
theorem test_wf_encodeDigit : (Instr.encodeDigit (-1)).wf = false := by decide
/-- A port of at most 4 characters and of 8-bit signed numbers. -/
def narrow : HostPort := ⟨some 4, 8, true⟩

theorem test_port_write : narrow.carries (.write [1#8, 2#8, 3#8] 0) = false := by decide
theorem test_port_wf : narrow.carries (.setBrightness 256) = false := by decide
theorem test_port_text : narrow.carries (.showText (List.replicate 4 0x2E#8) true) = true ∧
    narrow.carries (.showText (List.replicate 5 0x2E#8) true) = false ∧
    narrow.carries (.encodeString (List.replicate 5 0x2E#8)) = false := by decide
theorem test_port_number : [127, 128, -128, -129].map (fun v => narrow.carries (.showNumber v)) =
    [true, false, true, false] ∧
    [255, 256, -1].map (fun v => (HostPort.mk none 8 false).carries (.showNumber v)) = [true, false, false] := by decide

/-! ## Decode: a word of each operation, bit by bit -/

/-- R49: `01000000`. -/
theorem test_decode_cmdData : decode [0b01000000#8] = .ok (.cmdData, []) := by rfl
/-- R50: `11` `000` `pos`. -/
theorem test_decode_cmdAddr : decode [0b11000101#8] = .ok (.cmdAddr 5, []) := by rfl
/-- R50, R53: 0xC6 is never sent. -/
theorem test_decode_cmdAddr_six : decode [0b11000110#8] = .error .noSuchOperation := by rfl
/-- R51: `10` `00` `1` `b`. -/
theorem test_decode_cmdDisp : decode [0b10001011#8] = .ok (.cmdDisp 3#3, []) := by rfl
/-- R51, R53: with the display-on bit 0 the byte is never sent. -/
theorem test_decode_cmdDisp_off : decode [0b10000011#8] = .error .noSuchOperation := by rfl
/-- P1 step 1: `0x0`; lines A, B; `07`. -/
theorem test_decode_init : decode [0b00000000#8, 0x0A#8, 0x0B#8, 0x07#8] = .ok (.init (some 10) (some 11) 7, []) := by rfl
/-- P1 step 3: `0x1`; `0A`. -/
theorem test_decode_setBrightness : decode [0b00000001#8, 0x0A#8] = .ok (.setBrightness 10, []) := by rfl
/-- P1 step 2: `0x2`; `3F 06 5B 4F 66 6D`; `00`. -/
theorem test_decode_write : decode [0b00000010#8, 0x3F#8, 0x06#8, 0x5B#8, 0x4F#8, 0x66#8, 0x6D#8, 0x00#8] =
    .ok (.write [0x3F#8, 0x06#8, 0x5B#8, 0x4F#8, 0x66#8, 0x6D#8] 0, []) := by rfl
/-- The model's own counted form (entry 2). -/
theorem test_decode_write_three : decode [0x12#8, 0x03#8, 0xAA#8, 0xBB#8, 0xCC#8, 0x09#8] =
    .ok (.write [0xAA#8, 0xBB#8, 0xCC#8] 9, []) := by rfl
/-- P2 step 2: `0x3`; length 5, `31 32 2E 33 34`; colon 0. -/
theorem test_decode_showText : decode [0b00000011#8, 0x05#8, 0x31#8, 0x32#8, 0x2E#8, 0x33#8, 0x34#8, 0x00#8] =
    .ok (.showText [0x31#8, 0x32#8, 0x2E#8, 0x33#8, 0x34#8] false, []) := by rfl
/-- V84's value; the byte order is the model's (entry 2). -/
theorem test_decode_showHex : decode [0b00000100#8, 0x2B#8, 0x1A#8] = .ok (.showHex 0x1A2B, []) := by rfl
/-- V83's value; how a number is laid out is the model's (entry 2): -12 is 23. -/
theorem test_decode_showNumber : decode [0b00000101#8, 0x17#8] = .ok (.showNumber (-12), []) := by rfl
/-- A value wider than 64 bits, `2 ^ 64`, which is `2 ^ 65`; its bytes are reckoned outside the model. -/
theorem test_decode_showNumber_wide : decode ([0b00000101#8, 0x80#8, 0xFF#8, 0xFE#8, 0xFE#8, 0xFE#8, 0xFE#8, 0xFE#8,
    0xFE#8, 0xFE#8, 0x02#8]) = .ok (.showNumber (2 ^ 64), []) := by decide +kernel
/-- R59: a text of 300 characters; 300 is `172 + 128 * 1` (entry 2). -/
theorem test_decode_encodeString_long : decode (0b00001000#8 :: 0xAC#8 :: 0x01#8 :: List.replicate 300 0x2E#8) =
    .ok (.encodeString (List.replicate 300 0x2E#8), []) := by decide +kernel
/-- P3 step 1: `0x6`; `1A`. -/
theorem test_decode_encodeDigit : decode [0b00000110#8, 0x1A#8] = .ok (.encodeDigit 26, []) := by rfl
/-- P3 step 2: `0x7`; `5A`. -/
theorem test_decode_encodeChar : decode [0b00000111#8, 0x5A#8] = .ok (.encodeChar 0x5A#8, []) := by rfl
/-- P3 step 4: `0x8`; length 3, `31 2E 32`. -/
theorem test_decode_encodeString : decode [0b00001000#8, 0x03#8, 0x31#8, 0x2E#8, 0x32#8] =
    .ok (.encodeString [0x31#8, 0x2E#8, 0x32#8], []) := by rfl
/-- R56: 0x9, 0xA, 0xB, 0xC, 0xD. -/
theorem test_decode_start : decode [0b00001001#8] = .ok (.start, []) := by rfl
theorem test_decode_stop : decode [0b00001010#8] = .ok (.stop, []) := by rfl
theorem test_decode_writeByte : decode [0b00001011#8, 0xA5#8] = .ok (.writeByte 0xA5#8, []) := by rfl
theorem test_decode_dataCmd : decode [0b00001100#8] = .ok (.dataCmd, []) := by rfl
theorem test_decode_dispCtrl : decode [0b00001101#8] = .ok (.dispCtrl, []) := by rfl
/-- R56: 0xE and 0xF are reserved. -/
theorem test_decode_reserved : decode [0x0E#8] = .error .reservedOp ∧ decode [0x0F#8] = .error .reservedOp := ⟨rfl, rfl⟩
/-- The rows of spec/opcode_table.json, operand words of zeros. -/
theorem test_table_words_wire : [0x40, 0xC0, 0x88].map (decodeTableWord 8) =
    [some .cmdData, some (.cmdAddr 0), some (.cmdDisp 0#3)] := by rfl
theorem test_table_words_host : [0, 1, 2, 3, 4, 5, 6, 7, 8].map (decodeTableWord 8) =
    [some (.init none none 0), some (.setBrightness 0), some (.write (List.replicate 6 0#8) 0),
      some (.showText [] false), some (.showHex 0), some (.showNumber 0), some (.encodeDigit 0),
      some (.encodeChar 0#8), some (.encodeString [])] := by rfl
theorem test_table_words_engine : [9, 10, 11, 12, 13, 14, 15].map (decodeTableWord 8) =
    [some .start, some .stop, some (.writeByte 0#8), some .dataCmd, some .dispCtrl, none, none] := by rfl

/-! ## The encoder -/

/-- V1, V4, V5, V6, V7, P7. -/
theorem test_encodeDigit : [0, 15, 16, 0x1A, 0xFF, -1].map digitIndex = [0, 15, 0, 10, 15, 15] := by decide
/-- V6, V114: no event, no state but the result. -/
theorem test_encodeDigit_runs :
    exec (.encodeDigit 0x1A) State.reset = .next { State.reset with results := [.byte (segTable 10)] } := rfl
/-- V9 to V19 and the codes next to them: 0 9 A a Z z space - * . NUL : @ / [ { 0xFF. -/
theorem test_encodeChar :
    [0x30, 0x39, 0x41, 0x61, 0x5A, 0x7A, 0x20, 0x2D, 0x2A, 0x2E, 0x00, 0x3A, 0x40, 0x2F, 0x5B, 0x7B, 0xFF].map
      (fun n => (charIndex (BitVec.ofNat 8 n)).val) =
    [0, 9, 10, 10, 35, 35, 36, 37, 38, 38, 38, 38, 38, 38, 38, 38, 38] := by decide
/-- R66 (e): 191 codes fall back to star, and `*` is star too. -/
theorem test_encodeChar_count :
    ((List.range 256).filter fun n => charIndex (BitVec.ofNat 8 n) == 38).length = 192 := by decide +kernel
/-- V43: `"1.2"`. -/
theorem test_encodeString_dot : encodeString [0x31#8, 0x2E#8, 0x32#8] =
    some [segTable 1 ||| 0x80#8, segTable 2, blank, blank, blank, blank] := by rfl
/-- V50: `"1.2.3.4.5.6."`; V42: `"..."`; V48: `" ."`. -/
theorem test_encodeString_dots :
    encodeString [0x31#8, 0x2E#8, 0x32#8, 0x2E#8, 0x33#8, 0x2E#8, 0x34#8, 0x2E#8, 0x35#8, 0x2E#8, 0x36#8, 0x2E#8] =
      some ([1, 2, 3, 4, 5, 6].map fun i => segTable i ||| 0x80#8) ∧
    encodeString [0x2E#8, 0x2E#8, 0x2E#8] = some (List.replicate 6 blank) ∧
    encodeString [0x20#8, 0x2E#8] = some ((blank ||| 0x80#8) :: List.replicate 5 blank) := ⟨rfl, rfl, rfl⟩
/-- V54, V111: `"1234567"`. -/
theorem test_encodeString_long :
    reason (exec (.encodeString [0x31#8, 0x32#8, 0x33#8, 0x34#8, 0x35#8, 0x36#8, 0x37#8]) (ready 7)) =
      some .textTooLong := by decide

/-! ## Primitives and frames -/

/-- V60, V61: entered at (1,1) and at (0,0). -/
theorem test_start : [ready 7, unready 7 false false].map
      (fun s => (after (exec .start s)).map fun t => (t.trace, t.clk, t.dio)) =
    [some (startEvents, false, false), some (startEvents, false, false)] := by decide
/-- V62, V63: entered at (0,1) and at (0,0). -/
theorem test_stop : [unready 7 false true, unready 7 false false].map
      (fun s => (after (exec .stop s)).map fun t => (t.trace, t.clk, t.dio)) =
    [some (stopEvents, true, true), some (stopEvents, true, true)] := by decide
/-- V67: `WRITE_BYTE 0xA5`. -/
theorem test_writeByte : (after (exec (.writeByte 0xA5#8) (unready 7 false false))).map
      (fun t => (t.trace, t.clk, t.dio)) =
    some (one ++ zero ++ one ++ zero ++ zero ++ one ++ zero ++ one ++ ack, false, true) := by decide +kernel
/-- The table of bits under V66: 0xC5, 0x8B, 0x40. -/
theorem test_command_bytes : [Instr.cmdAddr 5, .cmdDisp 3#3, .cmdData].map
      (fun i => (after (exec i (unready 7 false false))).map State.trace) =
    [some (one ++ zero ++ one ++ zero ++ zero ++ zero ++ one ++ one ++ ack),
     some (one ++ one ++ zero ++ one ++ zero ++ zero ++ zero ++ one ++ ack),
     some (zero ++ zero ++ zero ++ zero ++ zero ++ zero ++ one ++ zero ++ ack)] := by decide +kernel
/-- V20. -/
theorem test_dataCmd : (after (exec .dataCmd (ready 7))).map State.trace =
    some (startEvents ++ zero ++ zero ++ zero ++ zero ++ zero ++ zero ++ one ++ zero ++ ack ++ stopEvents) := by
  decide +kernel
/-- V21. -/
theorem test_dispCtrl : (after (exec .dispCtrl (ready 7))).map State.trace =
    some (startEvents ++ one ++ one ++ one ++ one ++ zero ++ zero ++ zero ++ one ++ ack ++ stopEvents) := by
  decide +kernel
/-- V25: a data transaction of three bytes at position 5. -/
theorem test_dataXfer : (observe (dataXferT 5 [0xAA#8, 0xBB#8, 0xCC#8]), (dataXferT 5 [0xAA#8, 0xBB#8, 0xCC#8]).length) =
    ([[0xC5#8, 0xCC#8, 0xBB#8, 0xAA#8]], 231) := by decide +kernel

/-! ## Host operations -/

/-- V30: the events, from the reset state. -/
theorem test_init_events : (after (exec (.init (some 10) (some 11) 7) State.reset)).map State.trace =
    some ([.set .clk false, .set .dio false] ++
      startEvents ++ zero ++ zero ++ zero ++ zero ++ zero ++ zero ++ one ++ zero ++ ack ++ stopEvents ++
      startEvents ++ one ++ one ++ one ++ one ++ zero ++ zero ++ zero ++ one ++ ack ++ stopEvents) := by decide +kernel
/-- V31, V33, P7 and V104, V105. -/
theorem test_init :
    seen (exec (.init (some 10) (some 11) 0) State.reset) =
      some ⟨[[0x40#8], [0x88#8]], 140, true, 0#3, true, true⟩ ∧
    seen (exec (.init (some 10) (some 11) 200) State.reset) =
      some ⟨[[0x40#8], [0x8F#8]], 140, true, 7#3, true, true⟩ ∧
    seen (exec (.init (some 10) (some 11) (-5)) State.reset) =
      some ⟨[[0x40#8], [0x88#8]], 140, true, 0#3, true, true⟩ ∧
    reason (exec (.init (some 10) (some 11) 7) (ready 7)) = some .alreadyInitialised ∧
    reason (exec (.init (some 10) (some 10) 7) State.reset) = some .sameLine := by decide +kernel
/-- V35, V36. -/
theorem test_setBrightness :
    seen (exec (.setBrightness 0x0A) (ready 7)) = some ⟨[[0x40#8], [0x8A#8]], 138, true, 2#3, true, true⟩ ∧
    seen (exec (.setBrightness 8) (ready 7)) = some ⟨[[0x40#8], [0x88#8]], 138, true, 0#3, true, true⟩ := by
  decide +kernel
/-- V35, V37, P7: what is returned. -/
theorem test_setBrightness_returns :
    [0x0A, 255, -1].map (fun v => (after (exec (.setBrightness v) (ready 0))).map State.results) =
      [some [.byte 2#8], some [.byte 7#8], some [.byte 7#8]] := by decide +kernel
/-- V72: the bytes of section 5, their number and the end state. -/
theorem test_write_six : seen (exec (.write [0x80#8, 0x00#8, 0x00#8, 0x00#8, 0x00#8, 0xFF#8] 3) (ready 0)) =
    some ⟨[[0x40#8], [0xC3#8, 0x00#8, 0x00#8, 0x80#8, 0xFF#8, 0x00#8, 0x00#8], [0x88#8]], 531,
      true, 0#3, true, true⟩ := by
  rw [exec, execWrite, writeOp_run 3 rfl rfl]
  decide +kernel
/-- V76. -/
theorem test_write_three : seen (exec (.write [0xAA#8, 0xBB#8, 0xCC#8] 9) (ready 3)) =
    some ⟨[[0x40#8], [0xC5#8, 0xCC#8, 0xBB#8, 0xAA#8], [0x8B#8]], 369, true, 3#3, true, true⟩ := by
  rw [exec, execWrite, writeOp_run 9 rfl rfl]
  decide +kernel
/-- V73, V74, V75, P7: the position; V106, V107, V108, V101: the refusals. -/
theorem test_write_corners :
    [5, 6, 255, -3].map clampPosition = [5, 5, 5, 0] ∧
    [5, 0, 9].map (fun n => reason (exec (.write (List.replicate n 1#8) 0) (ready 7))) =
      List.replicate 3 (some .badSegmentCount) ∧
    reason (exec (.write (List.replicate 6 0#8) 0) State.reset) = some .notInitialised := by decide +kernel
/-- V77, V78: `SHOW "12.34"` sends the six bytes of V51, colon or not. -/
theorem test_show (colon : Bool) :
    exec (.showText [0x31#8, 0x32#8, 0x2E#8, 0x33#8, 0x34#8] colon) (ready 7) =
      exec (.write [segTable 1, segTable 2 ||| 0x80#8, segTable 3, segTable 4, blank, blank] 0) (ready 7) := by rfl
/-- V102, V103, V109. -/
theorem test_show_refused :
    reason (exec (.showText (List.replicate 7 0x31#8) false) State.reset) = some .notInitialised ∧
    reason (exec (.showText (List.replicate 7 0x31#8) false) (ready 7)) = some .textTooLong := by decide
/-- R104: always a text of six characters; R122: refused before INIT. -/
theorem test_showHex : symbols (hexFmt 0xFFFF#16) = 6 ∧ reason (exec (.showHex 0) State.reset) = some .notInitialised :=
  ⟨hexFmt_symbols _, rfl⟩
/-- V81: SHOW_NUMBER 7 sends the six bytes of `"     7"`. -/
theorem test_showNumber : exec (.showNumber 7) (ready 7) =
    exec (.write [blank, blank, blank, blank, blank, segTable 7] 0) (ready 7) := by rfl
/-- V110, and R122: refused before INIT. -/
theorem test_showNumber_refused : reason (exec (.showNumber 1234567) (ready 7)) = some .textTooLong ∧
    reason (exec (.showNumber 7) State.reset) = some .notInitialised := ⟨rfl, rfl⟩
/-- V81, V83, V110: `"     7"`, `"   -12"`, and seven characters. -/
theorem test_decFmtRef : decFmtRef 7 = [0x20#8, 0x20#8, 0x20#8, 0x20#8, 0x20#8, 0x37#8] ∧
    decFmtRef (-12) = [0x20#8, 0x20#8, 0x20#8, 0x2D#8, 0x31#8, 0x32#8] ∧ symbols (decFmtRef 1234567) = 7 := by
  decide +kernel
/-- V84, V85: `"  1a2b"`, `"     0"`. -/
theorem test_hexFmtRef : hexFmtRef 0x1A2B#16 = [0x20#8, 0x20#8, 0x31#8, 0x61#8, 0x32#8, 0x62#8] ∧
    hexFmtRef 0#16 = [0x20#8, 0x20#8, 0x20#8, 0x20#8, 0x20#8, 0x30#8] := by decide +kernel

/-! ## Steps -/

/-- V112, V113. -/
theorem test_port_refusals :
    [0x09#8, 0x0D#8, 0x0E#8, 0x0F#8].map (fun b => reason (step (asked (ready 7) [.request .host [b] none]))) =
      [some .notHostIssuable, some .notHostIssuable, some .reservedOp, some .reservedOp] := by decide +kernel
/-- P6: INIT, then a WRITE that a reset cuts after 100 events: 240 events in all, three frames and an open one. -/
theorem test_reset_inside_write :
    (after (step (asked { ready 7 with trace := initT 7 }
      [.request .host (encode (.write [0x3F#8, 0x06#8, 0x5B#8, 0x4F#8, 0x66#8, 0x6D#8] 0)) (some 100)]))).map
      (fun t => (t.inited, t.trace.length, observe t.trace)) =
    some (false, 240, [[0x40#8], [0x8F#8], [0x40#8]]) := by
  rw [step_request (i := .write [0x3F#8, 0x06#8, 0x5B#8, 0x4F#8, 0x66#8, 0x6D#8] 0) rfl rfl rfl, runAdmitted, exec,
    execWrite, writeOp_run 0 rfl rfl]
  decide +kernel
/-- P6: the open frame has taken four bits, all 0, and the clock is low. -/
theorem test_reset_inside_write_frame :
    (Observer.fresh.seeAll (initT 7 ++ (writeT 0 [0x3F#8, 0x06#8, 0x5B#8, 0x4F#8, 0x66#8, 0x6D#8] 7).take 100)).frame =
      some ⟨4, [false, false, false, false], []⟩ := by decide +kernel
/-- P6: a following INIT closes the frame the reset left open, without a whole byte in it, and sends its own two. -/
theorem test_init_after_cut :
    observe (initT 7 ++ (writeT 0 [0x3F#8, 0x06#8, 0x5B#8, 0x4F#8, 0x66#8, 0x6D#8] 7).take 100 ++ initT 7) =
      [[0x40#8], [0x8F#8], [0x40#8], [], [0x40#8], [0x8F#8]] := by decide +kernel
/-- Step 2 of the observer: a frame cut after seven bits of 0xC5 (1,0,1,0,0,0,1) is closed as 0x45; by entry 19 it moves no slot. -/
theorem test_init_after_cut_in_address :
    observe ((frameT [0xC5#8]).take 50 ++ initT 7) = [[0x45#8], [0x40#8], [0x8F#8]] ∧
    slotsAfter (frameT [0xC0#8, 1#8, 2#8, 3#8, 4#8, 5#8, 6#8] ++ (frameT [0xC5#8]).take 50 ++ initT 7) =
      [some 1#8, some 2#8, some 3#8, some 4#8, some 5#8, some 6#8] := by decide +kernel
/-- R22, R56: the first step after reset runs the operation a table word is. -/
theorem test_first_step_init : (after (step (State.reset.withFetchWord 8 0))).map (fun t => observe t.trace) =
    some [[0x40#8], [0x88#8]] := by decide +kernel
theorem test_first_step_dataCmd : (after (step (State.reset.withFetchWord 8 0xC))).map (fun t => observe t.trace) =
    some [[0x40#8]] := by decide +kernel
/-- P1: the slots after step 2 (non-normative, D22). -/
theorem test_slots : slotsAfter (writeT 0 [0x3F#8, 0x06#8, 0x5B#8, 0x4F#8, 0x66#8, 0x6D#8] 7) =
    [some 0x5B#8, some 0x06#8, some 0x3F#8, some 0x6D#8, some 0x66#8, some 0x4F#8] := by decide +kernel

/-! ## Witnesses: what the statements with hypotheses speak of, by the statement's name

Statements without hypotheses have none. Values stand at the boundaries of each clause. -/

/-- An initialised engine that has sent INIT's trace, as it is between steps. -/
def afterInit (ins : List Input) : State := { ready 7 with trace := initT 7, inputs := ins }

/-- The six bytes of V71. -/
def six : Segs := [0x3F#8, 0x06#8, 0x5B#8, 0x4F#8, 0x66#8, 0x6D#8]

/-- Whatever text can be shown is shown. -/
theorem test_show_runs_in {text : Text} (h : symbols text ≤ 6) {s : State} (hi : s.inited = true) :
    ∃ t, showOp text s = .next t := by
  have he := encodeString_isSome h
  simp only [showOp, hi, he]
  exact ⟨_, writeOp_run 0 hi (encodeString_segCountOk he)⟩

theorem test_show_runs {text : Text} (h : symbols text ≤ 6) (b : BitVec 3) : ∃ t, showOp text (ready b) = .next t :=
  test_show_runs_in h rfl

/-- FramesComeInTheRequiredOrder, OnlyFifteenFirstBytes, EverythingIsSentInFrames, LevelChangesAreHeldApart, EventCounts,
WhatOperationsLeaveAlone: each operation of the host completes somewhere. -/
theorem test_witness_host_operations :
    (engineOnly (.init none none 7) = false ∧ ∃ t, exec (.init none none 7) State.reset = .next t) ∧
    (engineOnly (.setBrightness 8) = false ∧ ∃ t, exec (.setBrightness 8) (ready 7) = .next t) ∧
    (engineOnly (.write six 6) = false ∧ ∃ t, exec (.write six 6) (ready 7) = .next t) ∧
    (engineOnly (.write [1#8, 2#8, 3#8] 5) = false ∧ ∃ t, exec (.write [1#8, 2#8, 3#8] 5) (ready 7) = .next t) ∧
    (engineOnly (.showText [] true) = false ∧ ∃ t, exec (.showText [] true) (ready 7) = .next t) ∧
    (engineOnly (.showHex 65536) = false ∧ ∃ t, exec (.showHex 65536) (ready 7) = .next t) ∧
    (engineOnly (.showNumber 7) = false ∧ ∃ t, exec (.showNumber 7) (ready 7) = .next t) ∧
    (engineOnly (.encodeDigit 16) = false ∧ ∃ t, exec (.encodeDigit 16) State.reset = .next t) ∧
    (engineOnly (.encodeChar 0x2E#8) = false ∧ ∃ t, exec (.encodeChar 0x2E#8) State.reset = .next t) ∧
    (engineOnly (.encodeString []) = false ∧ ∃ t, exec (.encodeString []) State.reset = .next t) :=
  ⟨⟨rfl, _, rfl⟩, ⟨rfl, _, rfl⟩, ⟨rfl, _, rfl⟩, ⟨rfl, _, rfl⟩, ⟨rfl, _, rfl⟩,
    ⟨rfl, test_show_runs (hexFmt_symbols _).le 7⟩, ⟨rfl, test_show_runs (text := [0x20#8, 0x20#8, 0x20#8, 0x20#8, 0x20#8, 0x37#8]) (by decide) 7⟩, ⟨rfl, _, rfl⟩, ⟨rfl, _, rfl⟩,
    ⟨rfl, _, rfl⟩⟩

/-- EventCounts, WhatOperationsLeaveAlone, TracesDependOnOperandsAndBright: so does each operation of the engine's own. -/
theorem test_witness_engine_operations :
    ∀ i ∈ [Instr.cmdData, .cmdAddr 5, .cmdDisp 7#3, .start, .stop, .writeByte 0xFF#8, .dataCmd, .dispCtrl],
      ∃ t, exec i (ready 7) = .next t := by
  intro i hi
  simp only [List.mem_cons, List.not_mem_nil, or_false] at hi
  rcases hi with rfl | rfl | rfl | rfl | rfl | rfl | rfl | rfl <;> exact ⟨_, rfl⟩

/-- TracesDependOnOperandsAndBright: two states that differ in their levels. -/
theorem test_witness_TracesDependOnOperandsAndBright :
    (ready 7).bright = (unready 7 false true).bright ∧ (ready 7).decTexts = (unready 7 false true).decTexts ∧
      (∃ t, exec .dispCtrl (ready 7) = .next t) ∧ (∃ t, exec .dispCtrl (unready 7 false true) = .next t) ∧
      ∃ t, exec (.showNumber 7) (ready 7) = .next t :=
  ⟨rfl, rfl, ⟨_, rfl⟩, ⟨_, rfl⟩, test_show_runs (text := [0x20#8, 0x20#8, 0x20#8, 0x20#8, 0x20#8, 0x37#8]) (by decide) 7⟩

/-- DecodeUndoesEncode: operands at the ends of their ranges. -/
theorem test_witness_DecodeUndoesEncode :
    ∀ i ∈ [Instr.cmdData, .cmdAddr 0, .cmdAddr 5, .cmdDisp 7#3, .init none (some 1) 0, .init (some 255) none 255,
        .setBrightness 255, .write [] 255, .write six 0, .showText [0x2E#8] true, .showHex 65535,
        .showNumber (-(2 ^ 100)), .showNumber (2 ^ 100), .encodeString (List.replicate 300 0x2E#8), .encodeDigit 255, .encodeChar 0xFF#8, .encodeString [],
        .start, .stop, .writeByte 0xFF#8, .dataCmd, .dispCtrl], i.wf = true := by decide

/-- EncodeUndoesDecode: bytes with more after them. -/
theorem test_witness_EncodeUndoesDecode : decode [0x01#8, 0xFF#8, 0x0E#8] = .ok (.setBrightness 255, [0x0E#8]) := rfl

/-- NeverSentBytesDecodeToNothing: the bytes next to those that are sent. -/
theorem test_witness_NeverSentBytesDecodeToNothing :
    ∀ b ∈ [0x10#8, 0x3F#8, 0x41#8, 0x7F#8, 0x80#8, 0x87#8, 0x90#8, 0xBF#8, 0xC6#8, 0xFF#8],
      b ∉ firstBytes ∧ 0x10 ≤ b.toNat ∧ b ≠ 0x12#8 := by decide

/-- StepRunsTheDecodedOperation: a host's request and the engine's own. -/
theorem test_witness_StepRunsTheDecodedOperation :
    let s := asked (ready 7) [.request .host [0x01#8, 0x0A#8] none]
    let e := asked (ready 7) [.request .engine [0x0C#8] none, .reset]
    (s.busy = false ∧ s.inputs = .request .host [0x01#8, 0x0A#8] none :: [] ∧
      decode [0x01#8, 0x0A#8] = .ok (.setBrightness 10, []) ∧ engineOnly (.setBrightness 10) = false) ∧
    (e.busy = false ∧ e.inputs = .request .engine [0x0C#8] none :: [.reset] ∧
      decode [0x0C#8] = .ok (.dataCmd, []) ∧ Issuer.engine ≠ .host) :=
  ⟨⟨rfl, rfl, rfl, rfl⟩, rfl, rfl, rfl, by decide⟩

/-- WhateverThePortCarriesRuns: a text of 300 characters and a number of 66 bits, on ports that carry no more; the step
that runs them goes on. -/
theorem test_witness_WhateverThePortCarriesRuns :
    let dots : Instr := .encodeString (List.replicate 300 0x2E#8)
    let wide : Instr := .showNumber (2 ^ 64)
    let sevens : Text := List.replicate 6 0x37#8
    let s := asked (ready 7) [.request .host (encode dots ++ []) none]
    let u := asked { ready 7 with decTexts := [(2 ^ 64, sevens)] } [.request .host (encode wide ++ []) none]
    ((HostPort.mk (some 300) 1 false).carries dots = true ∧ engineOnly dots = false ∧ s.busy = false ∧
      s.inputs = .request .host (encode dots ++ []) none :: [] ∧ ∃ t, step s = .next t) ∧
    ((HostPort.mk (some 0) 66 true).carries wide = true ∧ engineOnly wide = false ∧ u.busy = false ∧
      u.inputs = .request .host (encode wide ++ []) none :: [] ∧ ∃ t, step u = .next t) := by
  intro dots wide sevens s u
  have hd : admitted .host (encode dots ++ []) = .ok dots := by decide +kernel
  have hw : admitted .host (encode wide ++ []) = .ok wide := by decide +kernel
  refine ⟨⟨by decide +kernel, rfl, rfl, rfl, ?_⟩, by decide +kernel, rfl, rfl, rfl, ?_⟩
  · have he : encodeString (List.replicate 300 0x2E#8) = some _ := encodeString_isSome (by decide +kernel)
    have hs : step s = _ := step_request rfl rfl hd
    rw [hs, runAdmitted_none]
    simp only [exec, dots, execEncodeString, he]
    exact ⟨_, rfl⟩
  · have hs : step u = _ := step_request rfl rfl hw
    rw [hs, runAdmitted_none]
    exact test_show_runs_in (text := sevens) (s := { u with inputs := [] }) (by decide) rfl

/-- BusyHoldsRequests. -/
theorem test_witness_BusyHoldsRequests :
    let s := (asked (ready 7) [.request .host [0x01#8, 0x0A#8] none]).accept
    s.busy = true ∧ s.inputs = .request .host [0x01#8, 0x0A#8] none :: [] ∧ (ready 7).inputs = [] := ⟨rfl, rfl, rfl⟩

/-- RefusalsFollowTheTable: each row of the table is the answer somewhere, and so is none. -/
theorem test_witness_RefusalsFollowTheTable :
    let s := asked (ready 7) [.request .host (0x0F#8 :: []) none]
    let u := asked State.reset [.request .host (encode .start ++ []) (some 3)]
    s.busy = false ∧ s.inputs = .request .host (0x0F#8 :: []) none :: [] ∧
    u.busy = false ∧ u.inputs = .request .host (encode .start ++ []) (some 3) :: [] ∧ Instr.start.wf = true ∧
    refusalByTable .start u = some .notHostIssuable ∧
    refusalByTable (.write [] 0) State.reset = some .notInitialised ∧
    refusalByTable (.init none none 7) (ready 7) = some .alreadyInitialised ∧
    refusalByTable (.init (some 3) (some 3) 7) State.reset = some .sameLine ∧
    refusalByTable (.init (some 3) (some 4) 7) { State.reset with foreignLines := [4] } = some .sharedLine ∧
    refusalByTable (.write [1#8] 0) (ready 7) = some .badSegmentCount ∧
    refusalByTable (.encodeString (List.replicate 7 0x31#8)) State.reset = some .textTooLong ∧
    refusalByTable (.write six 0) (ready 7) = none :=
  ⟨rfl, rfl, rfl, rfl, rfl, rfl, rfl, rfl, rfl, rfl, rfl, rfl, rfl⟩

/-- RequestsThatAreNoOperation: both reasons, and the boundary first bytes of the third part. -/
theorem test_witness_RequestsThatAreNoOperation :
    let s := asked State.reset [.request .host [0x03#8, 0x00#8, 0x02#8] none]
    let u := asked (ready 7) [.request .engine [0x04#8, 0xFF#8] (some 0)]
    let b := asked (ready 7) [.request .host [0x0B#8] none]
    (s.busy = false ∧ s.inputs = .request .host [0x03#8, 0x00#8, 0x02#8] none :: [] ∧
      decode [0x03#8, 0x00#8, 0x02#8] = .error .noSuchOperation) ∧
    (u.busy = false ∧ u.inputs = .request .engine [0x04#8, 0xFF#8] (some 0) :: [] ∧
      decode [0x04#8, 0xFF#8] = .error .truncated) ∧
    (b.busy = false ∧ b.inputs = .request .host [0x0B#8] none :: []) :=
  ⟨⟨rfl, rfl, rfl⟩, ⟨rfl, rfl, rfl⟩, rfl, rfl⟩

/-- ResetInputAsStated. -/
theorem test_witness_ResetInputAsStated : (asked (ready 7) [.reset, .reset]).inputs = .reset :: [.reset] := rfl

/-- ResetCutsAnOperation: after no event, after some, after all and beyond. -/
theorem test_witness_ResetCutsAnOperation (k : Nat) :
    let s := asked (ready 7) [.request .host (encode (.write six 0)) (some k)]
    s.busy = false ∧ s.inputs = .request .host (encode (.write six 0)) (some k) :: [] ∧
    decode (encode (.write six 0)) = .ok (.write six 0, []) ∧ engineOnly (.write six 0) = false ∧
    ∃ u, exec (.write six 0) { s with inputs := [] } = .next u ∧ u.trace = s.trace ++ writeT 0 six 7 :=
  ⟨rfl, rfl, rfl, rfl, _, (writeOp_run (s := ready 7) (segs := six) 0 rfl rfl : execWrite six 0 (ready 7) = _), rfl⟩

/-- SequencePositionCountsEvents: the first position, the last, and none. -/
theorem test_witness_SequencePositionCountsEvents : 0 ≤ startT.length ∧ 8 ≤ startT.length ∧ 0 ≤ ([] : List Event).length := by
  decide

/-- CommandBytesOnTheWire: 0xC0, 0xC5, 0x88, 0x8F. -/
theorem test_witness_CommandBytesOnTheWire :
    (0xC0#8).toNat = 0xC0 + (0 : Position).val ∧ (0xC5#8).toNat = 0xC0 + (5 : Position).val ∧
    (0x88#8).toNat = 0x88 + (0#3).toNat ∧ (0x8F#8).toNat = 0x88 + (7#3).toNat := by decide

/-- InitLineChecks: a line of another engine, given and left out. -/
theorem test_witness_InitLineChecks :
    let s : State := { State.reset with foreignLines := [11, 256, 257] }
    s.inited = false ∧ (10 : LineId) ≠ 11 ∧ 11 ∈ s.foreignLines ∧ (10 : LineId) ≠ 256 ∧ 256 ∈ s.foreignLines ∧
      (10 : LineId) ≠ 257 ∧ 257 ∈ s.foreignLines := by decide

/-- InitOperation: brightness below, at and above its range; the three refusals. -/
theorem test_witness_InitOperation :
    ((0#3).toNat : Int) = max 0 (min (-5) 7) ∧ ((7#3).toNat : Int) = max 0 (min 7 7) ∧
    ((7#3).toNat : Int) = max 0 (min 8 7) ∧ (ready 7).inited = true ∧ State.reset.inited = false ∧
    (10 : LineId) ≠ 11 ∧ 10 ∉ State.reset.foreignLines ∧ 11 ∉ State.reset.foreignLines := by decide

/-- SetBrightnessOperation: values below, above and at the ends of 3 bits. -/
theorem test_witness_SetBrightnessOperation :
    ((7#3).toNat : Int) = (-1) % 8 ∧ ((0#3).toNat : Int) = 8 % 8 ∧ ((7#3).toNat : Int) = 255 % 8 ∧
    (ready 0).inited = true ∧ State.reset.inited = false := by decide

/-- WriteOperation: positions below, at the ends of and above 0 to 5; the counts next to 3 and 6. -/
theorem test_witness_WriteOperation :
    ((0#8).toNat : Int) = max 0 (min (-3) 5) ∧ ((0#8).toNat : Int) = max 0 (min 0 5) ∧
    ((5#8).toNat : Int) = max 0 (min 5 5) ∧ ((5#8).toNat : Int) = max 0 (min 255 5) ∧ (ready 7).inited = true ∧
    ∀ n ∈ [0, 2, 4, 5, 7], (List.replicate n 0#8).length ≠ 6 ∧ (List.replicate n 0#8).length ≠ 3 := by decide

/-- ShowOperation, LongTextsAreRefused, EncodeStringOperation, InitComesFirst: six characters besides dots, and seven. -/
theorem test_witness_ShowOperation :
    symbols [0x31#8, 0x2E#8, 0x32#8, 0x33#8, 0x34#8, 0x35#8, 0x36#8] ≤ 6 ∧ symbols [] ≤ 6 ∧
    symbols (List.replicate 7 0x31#8) > 6 ∧ (ready 7).inited = true ∧ State.reset.inited = false := by decide

/-- ShowHexOperation, PseudoOperationsExpand: values at the ends of 16 bits, beyond them and below 0. -/
theorem test_witness_ShowHexOperation :
    ((0#16).toNat : Int) = 0 % 65536 ∧ ((0xFFFF#16).toNat : Int) = 65535 % 65536 ∧
    ((0#16).toNat : Int) = 65536 % 65536 ∧ ((0xFFFF#16).toNat : Int) = (-1) % 65536 ∧
    encodeString [] = some (List.replicate 6 blank) := by
  refine ⟨by decide, by decide, by decide, by decide, rfl⟩

/-- ShowNumberOperation: a value whose text can be shown, and one whose text is too long. -/
theorem test_witness_ShowNumberOperation : (ready 7).inited = true ∧ State.reset.inited = false ∧
    symbols (decFmt (ready 7).decTexts 7) ≤ 6 ∧ symbols (decFmt (ready 7).decTexts 1234567) > 6 := by decide

/-- EncodeDigitOperation: the ends of four bits, beyond them and below 0. -/
theorem test_witness_EncodeDigitOperation :
    ∀ p ∈ [((0 : Fin 39), (0 : Int)), (15, 15), (0, 16), (15, 255), (15, -1)], (p.1.val : Int) = p.2 % 16 := by decide

/-- EncodeCharOperation: the ends of each range, and the codes next to them, which fall under the last clause alone. -/
theorem test_witness_EncodeCharOperation :
    (∀ c ∈ [0x41, 0x5A], 0x41 ≤ c ∧ c ≤ 0x5A) ∧ (∀ c ∈ [0x61, 0x7A], 0x61 ≤ c ∧ c ≤ 0x7A) ∧
    (∀ c ∈ [0x30, 0x39], 0x30 ≤ c ∧ c ≤ 0x39) ∧
    ∀ c ∈ [0x00, 0x1F, 0x21, 0x2C, 0x2E, 0x2F, 0x3A, 0x40, 0x5B, 0x60, 0x7B, 0xFF],
      c ≠ 0x20 ∧ c ≠ 0x2A ∧ c ≠ 0x2D ∧ ¬ (0x41 ≤ c ∧ c ≤ 0x5A) ∧ ¬ (0x61 ≤ c ∧ c ≤ 0x7A) ∧ ¬ (0x30 ≤ c ∧ c ≤ 0x39) := by
  decide

/-- EncoderOperationsArePure. -/
theorem test_witness_EncoderOperationsArePure : (∃ v, Instr.encodeDigit 3 = .encodeDigit v) ∧
    (∃ c, Instr.encodeChar 0x2E#8 = .encodeChar c) ∧ (∃ x, Instr.encodeString [] = .encodeString x) :=
  ⟨⟨_, rfl⟩, ⟨_, rfl⟩, _, rfl⟩

/-- PermutationReversesGroups: the ends of a group. EverythingIsSentInFrames: a frame of one byte. -/
theorem test_witness_PermutationReversesGroups : 0 < 3 ∧ 2 < 3 ∧ ([0x40#8] : List Byte) ≠ [] := by decide

/-- OnlyTwoOperationsWriteBright: both do write it. -/
theorem test_witness_OnlyTwoOperationsWriteBright :
    (∃ t, exec (.setBrightness 8) (ready 7) = .next t ∧ t.bright ≠ (ready 7).bright) ∧
    (∃ t, exec (.init none none 9) (unready 0 true true) = .next t ∧ t.bright ≠ (unready 0 true true).bright) :=
  ⟨⟨_, rfl, by decide⟩, _, rfl, by decide⟩

/-- TraceOnlyGrows: a step that adds events, one that waits, one that resets. -/
theorem test_witness_TraceOnlyGrows :
    (∃ t, step (asked (ready 7) [.request .host [0x01#8, 0x0A#8] none]) = .next t) ∧
    (∃ t, step (ready 7) = .next t) ∧ (∃ t, step (asked (ready 7) [.reset]) = .next t) :=
  ⟨⟨_, rfl⟩, ⟨_, rfl⟩, _, rfl⟩

/-- ValuesBeforeInitAreNeverSeen: INIT and an encoder operation. -/
theorem test_witness_ValuesBeforeInitAreNeverSeen :
    State.reset.inited = false ∧ engineOnly (.init none none 7) = false ∧
    (∃ t, exec (.init none none 7) State.reset = .next t ∧ t.inited = true) ∧
    ∃ t, exec (.encodeDigit 5) State.reset = .next t ∧ t.inited = false := ⟨rfl, rfl, ⟨_, rfl, rfl⟩, _, rfl, rfl⟩

/-- EveryStepKeepsSoundness: an initialised engine that is asked something and runs it. -/
theorem test_witness_EveryStepKeepsSoundness :
    let s := afterInit [.request .host [0x01#8, 0x0A#8] none]
    s.Sound ∧ ∃ t, step s = .next t := by
  refine ⟨⟨rfl, rfl, rfl, fun _ => ⟨rfl, rfl⟩, ⟨rfl, rfl⟩, fun _ => ⟨10, 11, rfl, by decide⟩, fun h => ?_⟩, _, rfl⟩
  exact absurd h (by decide)

/-- EveryStepKeepsLevelChangesApart: an initialised engine, never reset, whose WRITE a reset cuts. -/
theorem test_witness_EveryStepKeepsLevelChangesApart :
    let s := afterInit [.request .host (encode (.write six 0)) (some 100)]
    s.Held ∧ s.resets = 0 ∧ ∃ t, step s = .next t := by
  refine ⟨⟨rfl, fun h => absurd h (by decide), fun _ => ⟨[], (initT 7).drop 3, ?_, ⟨[], by simp, rfl, by simp⟩, ?_⟩⟩, rfl, _, rfl⟩
  · decide +kernel
  · exact ⟨by decide +kernel, rfl, rfl⟩

/-- RunsBeginAtInitAndEndAtResets: the run of an initialised engine that a reset ends, an INIT that begins one, and an
INIT that a reset cuts. -/
theorem test_witness_RunsBeginAtInitAndEndAtResets :
    let s := afterInit [.request .host (encode (.write six 0)) (some 100)]
    let u := asked State.reset [.request .host [0x00#8, 0x0A#8, 0x0B#8, 0x07#8] none]
    let v := asked State.reset [.request .host [0x00#8, 0x0A#8, 0x0B#8, 0x07#8] (some 40)]
    (s.inputs.all Input.fromHost = true ∧ s.inited = true ∧
      s.trace = [] ++ ([.set .clk false, .set .dio false, .set .clk true] ++ (initT 7).drop 3) ∧
      HeldSinceInit ((initT 7).drop 3) ∧ ∃ t, step s = .next t ∧ t.inited = false) ∧
    (u.inputs.all Input.fromHost = true ∧ u.inited = false ∧ ∃ t, step u = .next t ∧ t.inited = true) ∧
    (v.inputs.all Input.fromHost = true ∧ v.inited = false ∧ ∃ t, step v = .next t ∧ t.inited = false) := by
  refine ⟨⟨rfl, rfl, ?_, ⟨by decide +kernel, rfl, rfl⟩, _, rfl, rfl⟩, ⟨rfl, rfl, _, rfl, rfl⟩, rfl, rfl, _, rfl, rfl⟩
  decide +kernel

/-- A stop condition without its first two waits is no part of a run: the exception holds once, for INIT. -/
theorem test_held_refuses_unheld_stop :
    heldApart true false true ((initT 7).drop 3 ++ startT ++ byteT 0xFF#8 ++
      [.set .clk false, .set .dio false, .set .clk true, .wait 10, .set .dio true]) = false := by decide +kernel

/-- EveryStepKeepsTheWireInOrder, SlotsAfterWrite: the same engine after INIT's trace. -/
theorem test_witness_EveryStepKeepsTheWireInOrder :
    let s := afterInit [.request .host [0x01#8, 0x0A#8] none]
    s.WireSound ∧ s.inited = true ∧ (∃ t, step s = .next t) ∧ ∃ t, exec (.write six 0) s = .next t :=
  ⟨⟨rfl, rfl, by decide +kernel, fun _ => by decide +kernel, by decide +kernel⟩, rfl, ⟨_, rfl⟩, _, rfl⟩

/-- EnginesNeverShareALine: a second engine comes up beside one that owns lines 10 and 11. -/
theorem test_witness_EnginesNeverShareALine :
    let rig : Rig := [ready 7, asked State.reset [.request .host [0x00#8, 0x0C#8, 0x0D#8, 0x07#8] none]]
    rig.Exclusive ∧ ∃ rig', rig.stepAt 1 = some rig' := ⟨by unfold Rig.Exclusive; decide, _, rfl⟩

end Sys2Proof.Tests
end

section
/-! SUPPORT. Decoding undoes encoding, form by form, from the laws of the fields. -/

namespace Sys2Proof

@[simp] theorem addrPos_addrByte (p : Position) : addrPos (addrByte p) = some p := by
  revert p
  decide

@[simp] theorem setWidth_dispByte (b : BitVec 3) : (dispByte b).setWidth 3 = b := by
  revert b
  decide

/-- SHOW_HEX's two operand bytes, the lower first, are read back as its operand. -/
theorem halfInt_byteAt {v : Int} (h : 0 ≤ v ∧ v < 65536) :
    halfInt (byteAt (BitVec.ofInt 16 v) 0) (byteAt (BitVec.ofInt 16 v) 1) = v := by
  have join : byteAt (BitVec.ofInt 16 v) 1 ++ byteAt (BitVec.ofInt 16 v) 0 = BitVec.ofInt 16 v :=
    (BitVec.extractLsb'_append_extractLsb'_eq_extractLsb' rfl).trans BitVec.extractLsb'_eq_self
  rw [halfInt, join, BitVec.toNat_ofInt]
  omega

theorem writeOperands_append (segs : Segs) (p : Byte) (rest : List Byte) :
    writeOperands segs.length (segs ++ p :: rest) = .ok (.write segs (byteInt p), rest) := by
  rw [writeOperands, takeBytes_append]

theorem showOperands_counted (text : Text) (colon : Bool) (rest : List Byte) :
    showOperands (counted text ++ colonByte colon :: rest) = .ok (.showText text colon, rest) := by
  rw [showOperands, textField_counted]
  cases colon <;> rfl

/-- The first byte of every operation's encoding announces the form it is encoded in. -/
theorem firstByte_announces_kindOfInstr (i : Instr) : Laws.FirstByte.Statement i := by
  cases i with
  | cmdData => exact Laws.FirstByte.cmdData
  | cmdAddr p => exact Laws.FirstByte.cmdAddr p
  | cmdDisp b => exact Laws.FirstByte.cmdDisp b
  | init c d v => exact Laws.FirstByte.init c d v
  | setBrightness v => exact Laws.FirstByte.setBrightness v
  | write segs p => exact Laws.FirstByte.write segs p
  | showText t c => exact Laws.FirstByte.showText t c
  | showHex v => exact Laws.FirstByte.showHex v
  | showNumber v => exact Laws.FirstByte.showNumber v
  | encodeDigit v => exact Laws.FirstByte.encodeDigit v
  | encodeChar c => exact Laws.FirstByte.encodeChar c
  | encodeString t => exact Laws.FirstByte.encodeString t
  | start => exact Laws.FirstByte.start
  | stop => exact Laws.FirstByte.stop
  | writeByte v => exact Laws.FirstByte.writeByte v
  | dataCmd => exact Laws.FirstByte.dataCmd
  | dispCtrl => exact Laws.FirstByte.dispCtrl

theorem decode_of_kindOf {b : Byte} {k : Kind} (h : kindOf b = some k) (bs : List Byte) :
    decode (b :: bs) = operands k b bs := by
  rw [decode, h]

/-- The bytes after the first are read back as the operation's operands, whatever follows them. -/
theorem operands_encode {i : Instr} (hw : i.wf = true) {b : Byte} {bs : List Byte} (he : encode i = b :: bs)
    (rest : List Byte) : operands (kindOfInstr i) b (bs ++ rest) = .ok (i, rest) := by
  cases i with
  | write segs p =>
    have hp : byteInt (intByte p) = p := byteInt_intByte (of_decide_eq_true hw)
    by_cases hl : segs.length = 6
    · rw [encode, if_pos hl] at he
      cases he
      simp only [kindOfInstr, if_pos hl, operands, List.append_assoc, List.singleton_append]
      rw [← hl, writeOperands_append, hp]
    · rw [encode, if_neg hl] at he
      cases he
      simp only [kindOfInstr, if_neg hl, operands, counted, List.append_assoc, List.singleton_append,
        natField_natBytes, writeOperands_append, hp]
  | init c d v =>
    obtain ⟨hc, hd, hv⟩ := of_decide_eq_true hw
    cases he
    simp only [kindOfInstr, operands, List.cons_append, List.nil_append, lineOfByte_byteOfLine hc,
      lineOfByte_byteOfLine hd, byteInt_intByte hv]
  | setBrightness v | encodeDigit v =>
    cases he
    simp only [kindOfInstr, operands, List.cons_append, List.nil_append, byteInt_intByte (of_decide_eq_true hw)]
  | showText text colon =>
    cases he
    rw [kindOfInstr, operands, List.append_assoc, List.singleton_append, showOperands_counted]
  | showHex v =>
    cases he
    simp only [kindOfInstr, operands, List.cons_append, List.nil_append, halfInt_byteAt (of_decide_eq_true hw)]
  | showNumber v =>
    cases he
    simp only [kindOfInstr, operands, natField_natBytes, intOfCode_codeOfInt]
  | encodeString text =>
    cases he
    simp only [kindOfInstr, operands, textField_counted]
  | cmdAddr p =>
    cases he
    simp [kindOfInstr, operands]
  | cmdDisp b =>
    cases he
    simp [kindOfInstr, operands]
  | cmdData | encodeChar _ | start | stop | writeByte _ | dataCmd | dispCtrl =>
    cases he
    rfl

/-- Decoding the encoding of a well-formed operation gives it back, whatever follows it. -/
theorem decode_encode {i : Instr} (hw : i.wf = true) (rest : List Byte) :
    decode (encode i ++ rest) = .ok (i, rest) := by
  obtain ⟨b, bs, he, hk⟩ := firstByte_announces_kindOfInstr i
  rw [he, List.cons_append, decode_of_kindOf hk, operands_encode hw he]

end Sys2Proof
end

section
/-! SUPPORT. A request that decodes to an operation its issuer may issue is that operation's run. -/

namespace Sys2Proof.Machine

theorem admitted_of_decode {who : Issuer} {bytes junk : List Byte} {i : Instr} (hd : decode bytes = .ok (i, junk))
    (hi : who = .host → engineOnly i = false) : admitted who bytes = .ok i := by
  have allowed : ¬(who = .host ∧ engineOnly i = true) := fun ⟨hh, he⟩ => by simp [hi hh] at he
  simp only [admitted, hd, if_neg allowed]

theorem step_of_decode {s : State} {who : Issuer} {bytes junk : List Byte} {rest : List Input} {i : Instr}
    (hb : s.busy = false) (hs : s.inputs = .request who bytes none :: rest) (hd : decode bytes = .ok (i, junk))
    (hi : who = .host → engineOnly i = false) : step s = exec i { s with inputs := rest } := by
  rw [step_request hb hs (admitted_of_decode hd hi), runAdmitted_none]

end Sys2Proof.Machine
end

section
/-! What a host port carries (00_scope.md R8; entries 2 and 8). -/

namespace Sys2Proof

open Sys2Proof.Machine

theorem HostPort.wf_of_carries {port : HostPort} {i : Instr} (h : port.carries i = true) : i.wf = true := by
  unfold HostPort.carries at h
  exact (Bool.and_eq_true_iff.mp h).1

theorem HostPort.carries_showText (port : HostPort) (text : Text) (colon : Bool) :
    port.carries (.showText text colon) = true ↔ port.FitsText text := by
  simp [HostPort.carries, Instr.wf]

theorem HostPort.carries_encodeString (port : HostPort) (text : Text) :
    port.carries (.encodeString text) = true ↔ port.FitsText text := by
  simp [HostPort.carries, Instr.wf]

theorem HostPort.carries_showNumber (port : HostPort) (v : Int) :
    port.carries (.showNumber v) = true ↔ port.FitsNumber v := by
  simp [HostPort.carries, Instr.wf]

theorem two_mul_lt_two_pow_succ (n : Nat) : 2 * (n : Int) < 2 ^ (n + 1) := by
  have h : n < 2 ^ n := Nat.lt_two_pow_self
  zify at h
  rw [pow_succ]
  omega

/-- Settles O6: a port carries well-formed operations only, and decoding undoes their encoding; `TEXT_MAX` is taken as the
text's length, and `NUM_BITS` as one more than the integer's absolute value. -/
theorem whateverThePortCarriesRuns : Obligations.WhateverThePortCarriesRuns := by
  refine ⟨?runs, ?texts, ?numbers⟩
  case runs =>
    intro port i s junk rest hc he hb hs
    exact step_of_decode hb hs (decode_encode (HostPort.wf_of_carries hc) junk) fun _ => he
  case texts =>
    intro text colon bits signed port
    have fits : port.FitsText text := by simp [HostPort.FitsText, port]
    exact ⟨(port.carries_showText text colon).mpr fits, (port.carries_encodeString text).mpr fits⟩
  case numbers =>
    intro v longest
    have width := two_mul_lt_two_pow_succ v.natAbs
    refine ⟨v.natAbs + 1, (HostPort.carries_showNumber _ v).mpr ?_, fun hv => (HostPort.carries_showNumber _ v).mpr ?_⟩
    · simp only [HostPort.FitsNumber, if_true]
      omega
    · simp only [HostPort.FitsNumber, Bool.false_eq_true, if_false]
      omega

end Sys2Proof
end

section
/-! SUPPORT. The four forms of an operation's answer, from which the frame, the writers of `BRIGHT` and the invariant of
the engine follow. -/

namespace Sys2Proof.Machine

/-- The operations of the encoder. -/
def IsEncoder (i : Instr) : Prop :=
  (∃ v, i = .encodeDigit v) ∨ (∃ ch, i = .encodeChar ch) ∨ ∃ text, i = .encodeString text

/-- What an operation that goes on from `s` can leave, by form. A host's operation that only sends runs after INIT
and leaves both lines high; an encoder operation answers the same value in every state. -/
inductive Answers (s : State) : Instr → State → Prop
  | sends (i : Instr) (c d : Level) (es : List Event)
      (byHost : engineOnly i = false → s.inited = true ∧ c = true ∧ d = true) : Answers s i (s.emitted c d es)
  | inits (c d : Option LineId) (v : Int) (cl dl : LineId) (es : List Event)
      (different : cl ≠ dl) (freeClk : cl ∉ s.foreignLines) (freeDio : dl ∉ s.foreignLines) :
      Answers s (.init c d v)
        (((s.emitted true true es).bindLines cl dl).setBright (initBrightness v)).setInited
  | setsBrightness (v : Int) (r : Result) (es : List Event) (initialised : s.inited = true) :
      Answers s (.setBrightness v) (((s.emitted true true es).setBright (maskBrightness v)).deliver r)
  | returns (i : Instr) (r : Result) (encoder : IsEncoder i) (always : ∀ u : State, exec i u = .next (u.deliver r)) :
      Answers s i (s.deliver r)

theorem exec_encodeString {text : Text} {segs : Segs} (h : encodeString text = some segs) (s : State) :
    exec (.encodeString text) s = .next (s.deliver (.seq segs)) := by
  simp only [exec, execEncodeString, h]

/-- Every operation's next state has one of the four forms. -/
theorem exec_answers {i : Instr} {s t : State} (h : exec i s = .next t) : Answers s i t := by
  cases i with
  | cmdData | cmdAddr _ | cmdDisp _ | start | stop | writeByte _ | dataCmd | dispCtrl =>
    cases exec_next h
    exact .sends _ _ _ _ nofun
  | init c d v =>
    obtain ⟨-, different, freeClk, freeDio, rfl⟩ := exec_next h
    exact .inits c d v _ _ _ different freeClk freeDio
  | setBrightness v =>
    obtain ⟨initialised, rfl⟩ := exec_next h
    exact .setsBrightness v _ _ initialised
  | write segs pos =>
    obtain ⟨initialised, -, rfl⟩ := exec_next h
    exact .sends _ _ _ _ fun _ => ⟨initialised, rfl, rfl⟩
  | showText _ _ | showHex _ | showNumber _ =>
    obtain ⟨initialised, segs, -, -, rfl⟩ := exec_next h
    exact .sends _ _ _ _ fun _ => ⟨initialised, rfl, rfl⟩
  | encodeDigit v =>
    cases exec_next h
    exact .returns _ _ (.inl ⟨v, rfl⟩) fun _ => rfl
  | encodeChar ch =>
    cases exec_next h
    exact .returns _ _ (.inr (.inl ⟨ch, rfl⟩)) fun _ => rfl
  | encodeString text =>
    obtain ⟨segs, he, rfl⟩ := exec_next h
    exact .returns _ _ (.inr (.inr ⟨text, rfl⟩)) (exec_encodeString he)

end Sys2Proof.Machine
end

section
/-! The invariant of the engine holds at reset, and every step keeps it (10_state.md R12, R13, R22, R24). -/

namespace Sys2Proof.Machine

/-- While nothing is in progress, initialised, driven or bound, the invariant asks no more than that only the host's
requests wait. -/
theorem State.Sound.of_uninitialised {s : State} (hosts : s.inputs.all Input.fromHost = true) (idle : s.busy = false)
    (noPos : s.seqPos = none) (uninit : s.inited = false) (off : s.clkOut = false ∧ s.dioOut = false)
    (unbound : s.binding = none) : s.Sound where
  fromHost := hosts
  idle := idle
  noPos := noPos
  high := by simp [uninit]
  driven := by simpa [uninit] using off
  bound := by simp [uninit]
  unbound := fun _ => unbound

/-- After a reset the invariant holds whatever held before it, as long as only the host's requests wait. -/
theorem State.resetInput_sound {s : State} (hosts : s.inputs.all Input.fromHost = true) : s.resetInput.Sound :=
  .of_uninitialised hosts rfl rfl rfl ⟨rfl, rfl⟩ rfl

theorem State.cutShort_sound {s : State} (k : Nat) (whole : List Event) (hosts : s.inputs.all Input.fromHost = true) :
    (s.cutShort k whole).Sound :=
  State.resetInput_sound (by simpa using hosts)

/-- Taking the first input from the port keeps the invariant. -/
theorem State.Sound.dropInput {s : State} {x : Input} {rest : List Input} (h : s.Sound) (hs : s.inputs = x :: rest) :
    ({ s with inputs := rest } : State).Sound :=
  { h with
    fromHost := by
      have all := h.fromHost
      rw [hs, List.all_cons, Bool.and_eq_true] at all
      exact all.2 }

theorem State.Sound.emitted {s : State} (h : s.Sound) (es : List Event) : (s.emitted true true es).Sound :=
  { h with idle := rfl, noPos := rfl, high := fun _ => ⟨rfl, rfl⟩ }

theorem State.Sound.setBright {s : State} (h : s.Sound) (b : BitVec 3) : (s.setBright b).Sound := { h with }

theorem State.Sound.deliver {s : State} (h : s.Sound) (r : Result) : (s.deliver r).Sound := { h with }

/-- Binding two different lines that no other engine owns makes a sound engine with both lines high an initialised
one (43_host_operations.md R100). -/
theorem State.Sound.initialise {s : State} (h : s.Sound) (hc : s.clk = true) (hd : s.dio = true) {c d : LineId}
    (different : c ≠ d) (freeClk : c ∉ s.foreignLines) (freeDio : d ∉ s.foreignLines) (b : BitVec 3) :
    ((s.bindLines c d).setBright b).setInited.Sound :=
  { h with
    high := fun _ => ⟨hc, hd⟩
    driven := ⟨rfl, rfl⟩
    bound := fun _ => ⟨c, d, rfl, different, freeClk, freeDio⟩
    unbound := nofun }

/-- Every operation the host may issue keeps the invariant. -/
theorem State.Sound.exec {i : Instr} {s t : State} (h : s.Sound) (hi : engineOnly i = false)
    (he : Machine.exec i s = .next t) : t.Sound := by
  cases exec_answers he with
  | sends _ c d es byHost =>
    obtain ⟨-, rfl, rfl⟩ := byHost hi
    exact h.emitted es
  | inits c d v cl dl es different freeClk freeDio =>
    exact (h.emitted es).initialise rfl rfl different freeClk freeDio _
  | setsBrightness v r es _ => exact ((h.emitted es).setBright _).deliver r
  | returns _ r _ _ => exact h.deliver r

/-- An operation of the host keeps the invariant, run to its end or cut by a reset. -/
theorem State.Sound.settled {i : Instr} {s u : State} (h : s.Sound) (hi : engineOnly i = false)
    (he : Machine.exec i s = .next u) (cut : Option Nat) : (Machine.settled cut s u).Sound := by
  cases cut with
  | none => exact h.exec hi he
  | some k => exact State.cutShort_sound k _ h.fromHost

/-- A request that waits at a sound engine is the host's. -/
theorem State.Sound.issuer_eq_host {s : State} {who : Issuer} {bytes : List Byte} {cut : Option Nat}
    {rest : List Input} (h : s.Sound) (hs : s.inputs = .request who bytes cut :: rest) : who = .host := by
  have all := h.fromHost
  cases who with
  | host => rfl
  | engine => simp [hs, Input.fromHost] at all

/-- Settles O54, along what a step can do: the engine waits, a reset falls while it is idle, or an operation of the
host runs to its end or to the reset that cuts it. -/
theorem everyStepKeepsSoundness : Obligations.EveryStepKeepsSoundness := by
  intro s t h hstep
  obtain ⟨rfl, -⟩ | ⟨rest, hs, rfl⟩ | ⟨who, bytes, cut, rest, i, u, hs, -, hadm, he, rfl⟩ := step_next hstep
  · exact h
  · exact State.resetInput_sound (h.dropInput hs).fromHost
  · have byHost : engineOnly i = false := by
      simpa [h.issuer_eq_host hs] using (admitted_ok hadm).2
    exact (h.dropInput hs).settled byHost he cut

/-- Settles O53: nothing is in progress, driven or bound at reset; that nothing is presented there is the model's choice
(entry 10). -/
theorem resetIsSound : Obligations.ResetIsSound :=
  State.Sound.of_uninitialised rfl rfl rfl rfl ⟨rfl, rfl⟩ rfl

end Sys2Proof.Machine
end

section
/-! What operations write and leave: `BRIGHT` and the frame (10_state.md R10, R11, R18, R21). -/

namespace Sys2Proof.Machine

/-- INIT clamps its brightness to 0 to 7 (30_encoding.md R54). -/
theorem initBrightness_toNat (v : Int) : ((initBrightness v).toNat : Int) = max 0 (min v 7) := by
  rw [initBrightness, BitVec.toNat_ofInt, clamp]
  split_ifs <;> omega

/-- SET_BRIGHTNESS takes its value modulo 8 (R54). -/
theorem maskBrightness_toNat (v : Int) : ((maskBrightness v).toNat : Int) = v % 8 := by
  rw [maskBrightness, BitVec.toNat_ofInt]
  omega

/-- Settles O44, form by form of the answer. -/
theorem onlyTwoOperationsWriteBright : Obligations.OnlyTwoOperationsWriteBright := by
  intro i s t h written
  cases exec_answers h with
  | sends => exact absurd rfl written
  | inits c d v => exact .inl ⟨c, d, v, rfl, initBrightness_toNat v⟩
  | setsBrightness v => exact .inr ⟨v, rfl, maskBrightness_toNat v⟩
  | returns => exact absurd rfl written

/-- Settles O45, form by form of the answer. -/
theorem whatOperationsLeaveAlone : Obligations.WhatOperationsLeaveAlone := by
  intro i s t h
  cases exec_answers h with
  | sends => exact ⟨rfl, rfl, rfl, rfl, fun _ => ⟨rfl, rfl, rfl, rfl⟩, fun _ _ _ _ => rfl⟩
  | inits c d v => exact ⟨rfl, rfl, rfl, rfl, fun notInit => absurd rfl (notInit c d v), fun _ _ _ _ => rfl⟩
  | setsBrightness v =>
    exact ⟨rfl, rfl, rfl, rfl, fun _ => ⟨rfl, rfl, rfl, rfl⟩, fun notSet => absurd rfl (notSet v)⟩
  | returns _ r encoder =>
    refine ⟨rfl, rfl, rfl, rfl, fun _ => ⟨rfl, rfl, rfl, rfl⟩, fun _ notDigit notChar notString => ?_⟩
    obtain ⟨v, hv⟩ | ⟨ch, hch⟩ | ⟨text, htext⟩ := encoder
    · exact absurd hv (notDigit v)
    · exact absurd hch (notChar ch)
    · exact absurd htext (notString text)

/-- INIT answers the same state whatever `BRIGHT` and the levels hold: it writes all three (R100). -/
theorem exec_init_of_values (c d : Option LineId) (v : Int) (s : State) (b : BitVec 3) (clk dio : Level) :
    exec (.init c d v) { s with bright := b, clk := clk, dio := dio } = exec (.init c d v) s := by
  simp only [exec, execInit, running_initRun]

/-- Settles O48: before INIT only INIT, which writes the three values, and the encoder operations, which read no state,
go on. -/
theorem valuesBeforeInitAreNeverSeen : Obligations.ValuesBeforeInitAreNeverSeen := by
  intro i s t b c d uninit hi h
  cases exec_answers h with
  | sends _ _ _ _ byHost =>
    obtain ⟨initialised, -⟩ := byHost hi
    simp [uninit] at initialised
  | inits => exact ⟨_, (exec_init_of_values ..).trans h, rfl, rfl, rfl, rfl, fun _ => rfl⟩
  | setsBrightness _ _ _ initialised => simp [uninit] at initialised
  | returns _ r _ always =>
    exact ⟨_, always _, rfl, rfl, rfl, rfl, fun initialised => by simp [uninit] at initialised⟩

end Sys2Proof.Machine
end

section
/-! The state after reset, and `BUSY` with the sequence position inside an operation (10_state.md R16, R20, R22). -/

namespace Sys2Proof.Machine

/-- Settles O12: each field of the state after reset, as it is defined. -/
theorem resetStateAsStated : Obligations.ResetStateAsStated :=
  ⟨rfl, rfl, rfl, rfl, rfl, rfl, rfl, rfl, rfl, rfl⟩

/-- Settles O15: the position starts at 0 and every event advances it by one, so after `k` events it is `k`. -/
theorem sequencePositionCountsEvents : Obligations.SequencePositionCountsEvents := by
  intro es s k hk
  have sent : (es.take k).length = k := List.length_take_of_le hk
  refine ⟨?busy, ?position, rfl, rfl⟩
  case busy => simp
  case position => simp only [State.emitAll_seqPos, State.accept_seqPos, Option.map_some, sent, Nat.zero_add]

/-- The empty trace is made of no run. -/
theorem heldThroughout_nil (n : Nat) : HeldThroughout n [] := ⟨[], Nat.zero_le n, rfl, by simp⟩

/-- Settles O50: the trace is empty, and the engine is not initialised. That nothing is presented there is the model's
choice (entry 10). -/
theorem resetIsHeld : Obligations.ResetIsHeld where
  fromHost := rfl
  before := fun _ => heldThroughout_nil 0
  current := nofun

/-- Settles O55: of an empty trace the observer (non-normative, entry 19) has read no frame, and the engine is not
initialised. That nothing is presented at reset is the model's choice (entry 10). -/
theorem resetIsWireSound : Obligations.ResetIsWireSound where
  fromHost := rfl
  uncut := rfl
  closed := rfl
  high := nofun
  ordered := rfl

end Sys2Proof.Machine
end

section
/-! The trace only grows (10_state.md R23, 20_memory.md R43). -/

namespace Sys2Proof.Machine

/-- An operation adds its events at the end of the trace. -/
theorem exec_trace_prefix {i : Instr} {s t : State} (h : exec i s = .next t) : s.trace <+: t.trace := by
  cases exec_answers h with
  | sends _ _ _ es => exact List.prefix_append s.trace es
  | inits _ _ _ _ _ es => exact List.prefix_append s.trace es
  | setsBrightness _ _ es => exact List.prefix_append s.trace es
  | returns => exact List.prefix_rfl

/-- A reset inside an operation takes back none of the events before it (R147). -/
theorem State.cutShort_trace_prefix (k : Nat) (whole : List Event) (s : State) :
    s.trace <+: (s.cutShort k whole).trace := by
  rw [State.cutShort_eq]
  exact List.prefix_append s.trace (whole.take k)

/-- An operation run to its end, or to the reset that cuts it, takes no event back. -/
theorem settled_trace_prefix {i : Instr} {s u : State} (h : exec i s = .next u) (cut : Option Nat) :
    s.trace <+: (settled cut s u).trace := by
  cases cut with
  | none => exact exec_trace_prefix h
  | some k => exact State.cutShort_trace_prefix k (eventsSince s u) s

/-- Settles O46, along what a step can do: the engine waits, a reset leaves the trace as it stands (DEDUCED, entry 11),
or an operation runs to its end or to the reset that cuts it. -/
theorem traceOnlyGrows : Obligations.TraceOnlyGrows := by
  intro s t hstep
  obtain ⟨rfl, -⟩ | ⟨rest, -, rfl⟩ | ⟨who, bytes, cut, rest, i, u, -, -, -, he, rfl⟩ := step_next hstep
  · exact List.prefix_rfl
  · exact List.prefix_rfl
  · exact settled_trace_prefix he cut

end Sys2Proof.Machine
end

section
/-! SUPPORT. Encoding undoes decoding: the encoder's fields undo the decoder's, and a form's first byte is the one the
table of first bytes gives it. -/

namespace Sys2Proof

/-! ## Fields -/

@[simp] theorem intByte_byteInt (b : Byte) : intByte (byteInt b) = b := by
  simp [intByte, byteInt]

theorem byteInt_fitsByte (b : Byte) : FitsByte (byteInt b) := by
  have := b.isLt
  simp only [FitsByte, byteInt]
  omega

@[simp] theorem byteOfLine_lineOfByte (b : Byte) : byteOfLine (lineOfByte b) = b := by
  unfold lineOfByte
  split
  · next h => exact h.symm
  · simp [byteOfLine]

theorem lineOfByte_fitsLine (b : Byte) : FitsLine (lineOfByte b) := by
  unfold lineOfByte
  split
  · rfl
  · next h =>
    have positive : b.toNat ≠ 0 := fun h0 => h (BitVec.eq_of_toNat_eq h0)
    have := b.isLt
    simp only [FitsLine, Option.all_some, decide_eq_true_eq]
    omega

/-- The operand of two bytes is those two bytes, joined. -/
theorem ofInt_halfInt (lo hi : Byte) : BitVec.ofInt 16 (halfInt lo hi) = (hi ++ lo : BitVec 16) := by
  rw [halfInt, BitVec.ofInt_natCast, BitVec.ofNat_toNat, BitVec.setWidth_eq]

@[simp] theorem byteAt_zero_append (lo hi : Byte) : byteAt (hi ++ lo : BitVec 16) 0 = lo :=
  BitVec.extractLsb'_append_eq_right

@[simp] theorem byteAt_one_append (lo hi : Byte) : byteAt (hi ++ lo : BitVec 16) 1 = hi :=
  BitVec.extractLsb'_append_eq_left

theorem halfInt_bounds (lo hi : Byte) : 0 ≤ halfInt lo hi ∧ halfInt lo hi < 65536 := by
  have := (hi ++ lo : BitVec 16).isLt
  simp only [halfInt]
  omega

/-- The operands WRITE is read with are so many segment bytes and the byte of the position. -/
theorem writeOperands_ok {n : Nat} {bs rest : List Byte} {i : Instr} (h : writeOperands n bs = .ok (i, rest)) :
    ∃ segs p, segs.length = n ∧ i = .write segs (byteInt p) ∧ bs = segs ++ p :: rest := by
  unfold writeOperands at h
  split at h
  · next segs p r ht =>
    obtain ⟨hl, rfl⟩ := takeBytes_some ht
    cases h
    exact ⟨segs, p, hl, rfl, rfl⟩
  · cases h
  · cases h

/-- The operands SHOW is read with are its counted text and the byte of its colon flag. -/
theorem showOperands_ok {bs rest : List Byte} {i : Instr} (h : showOperands bs = .ok (i, rest)) :
    ∃ text colon, i = .showText text colon ∧ bs = counted text ++ colonByte colon :: rest := by
  unfold showOperands at h
  split at h
  · next text c r ht =>
    rw [counted_of_textField ht]
    split_ifs at h with h0 h1
    · cases h
      exact ⟨text, false, rfl, by rw [h0]; rfl⟩
    · cases h
      exact ⟨text, true, rfl, by rw [h1]; rfl⟩
  · cases h
  · cases h

/-! ## First bytes -/

/-- A first byte announces the form of a row that it fits. -/
theorem exists_row_of_kindOf {b : Byte} {k : Kind} (h : kindOf b = some k) :
    ∃ r ∈ rows, b &&& r.mask = r.pattern ∧ r.kind = k := by
  obtain ⟨r, hr, hk⟩ := Option.map_eq_some_iff.mp h
  exact ⟨r, List.mem_of_find?_eq_some hr, by simpa using List.find?_some hr, hk⟩

/-- The first byte of a form, less any operand it holds: the pattern of the form's row. -/
def Kind.code (k : Kind) : Byte := ((rows.find? (·.kind = k)).map Row.pattern).getD 0#8

/-- Only the address command and the display control have an operand in the first byte: every other form has the one first
byte of its row. -/
theorem eq_code_of_kindOf {b : Byte} {k : Kind} (h : kindOf b = some k) (ha : k ≠ .cmdAddr) (hd : k ≠ .cmdDisp) :
    b = k.code := by
  obtain ⟨r, hr, hb, rfl⟩ := exists_row_of_kindOf h
  have whole : ∀ r ∈ rows, r.kind ≠ .cmdAddr → r.kind ≠ .cmdDisp →
      r.mask = BitVec.allOnes 8 ∧ r.pattern = r.kind.code := by decide
  obtain ⟨hm, hp⟩ := whole r hr ha hd
  rwa [hm, BitVec.and_allOnes, hp] at hb

theorem addrByte_of_addrPos : ∀ {b : Byte}, kindOf b = some .cmdAddr → ∀ {p : Position}, addrPos b = some p →
    addrByte p = b := by decide

theorem dispByte_setWidth : ∀ {b : Byte}, kindOf b = some .cmdDisp → dispByte (b.setWidth 3) = b := by decide

end Sys2Proof
end

section
/-! Decoding and encoding undo each other (30_encoding.md R49 to R51, R56, R57; the layout of the operands is the
model's, entry 2). -/

namespace Sys2Proof

/-- Settles O1, by the form the operation is encoded in: the first byte announces it, and each field reads back what the
encoder wrote. -/
theorem decodeUndoesEncode : Obligations.DecodeUndoesEncode := fun _ rest hw => decode_encode hw rest

/-- Operands that are read after a first byte of their form are well formed, and they are encoded as they stood. -/
theorem encode_of_operands {k : Kind} {b : Byte} {bs rest : List Byte} {i : Instr} (hk : kindOf b = some k)
    (h : operands k b bs = .ok (i, rest)) : i.wf = true ∧ encode i ++ rest = b :: bs := by
  have code := eq_code_of_kindOf hk
  cases k with
  | cmdAddr =>
    simp only [operands] at h
    split at h
    · next p hp =>
      cases h
      simp [Instr.wf, encode, addrByte_of_addrPos hk hp]
    · cases h
  | cmdDisp =>
    cases h
    simp [Instr.wf, encode, dispByte_setWidth hk]
  | cmdData | start | stop | dataCmd | dispCtrl =>
    obtain rfl := code nofun nofun
    cases h
    exact ⟨rfl, rfl⟩
  | encodeChar | writeByte =>
    obtain rfl := code nofun nofun
    simp only [operands] at h
    split at h
    · cases h
      exact ⟨rfl, rfl⟩
    · cases h
  | setBrightness | encodeDigit =>
    obtain rfl := code nofun nofun
    simp only [operands] at h
    split at h
    · next v r =>
      cases h
      refine ⟨by simp [Instr.wf, byteInt_fitsByte], ?_⟩
      rw [encode, intByte_byteInt]
      rfl
    · cases h
  | init =>
    obtain rfl := code nofun nofun
    simp only [operands] at h
    split at h
    · next c d v r =>
      cases h
      refine ⟨decide_eq_true ⟨lineOfByte_fitsLine c, lineOfByte_fitsLine d, byteInt_fitsByte v⟩, ?_⟩
      rw [encode, byteOfLine_lineOfByte, byteOfLine_lineOfByte, intByte_byteInt]
      rfl
    · cases h
  | showHex =>
    obtain rfl := code nofun nofun
    simp only [operands] at h
    split at h
    · next lo hi r =>
      cases h
      refine ⟨by simp [Instr.wf, halfInt_bounds], ?_⟩
      simp only [encode, ofInt_halfInt, byteAt_zero_append, byteAt_one_append]
      rfl
    · cases h
  | write =>
    obtain rfl := code nofun nofun
    obtain ⟨segs, p, hl, rfl, rfl⟩ := writeOperands_ok h
    refine ⟨by simp [Instr.wf, byteInt_fitsByte], ?_⟩
    rw [encode, if_pos hl, intByte_byteInt, List.cons_append, List.append_assoc]
    rfl
  | writeCounted =>
    obtain rfl := code nofun nofun
    simp only [operands] at h
    split at h
    · next n r hn =>
      split_ifs at h with h6
      obtain ⟨segs, p, rfl, rfl, rfl⟩ := writeOperands_ok h
      refine ⟨by simp [Instr.wf, byteInt_fitsByte], ?_⟩
      rw [encode, if_neg h6, intByte_byteInt, natBytes_of_natField hn, counted]
      simp only [List.cons_append, List.append_assoc]
      rfl
    · cases h
  | showText =>
    obtain rfl := code nofun nofun
    obtain ⟨text, colon, rfl, rfl⟩ := showOperands_ok h
    refine ⟨rfl, ?_⟩
    rw [encode, List.cons_append, List.append_assoc]
    rfl
  | showNumber =>
    obtain rfl := code nofun nofun
    simp only [operands] at h
    split at h
    · next n r hn =>
      cases h
      refine ⟨rfl, ?_⟩
      rw [encode, codeOfInt_intOfCode, natBytes_of_natField hn]
      rfl
    · cases h
  | encodeString =>
    obtain rfl := code nofun nofun
    simp only [operands] at h
    split at h
    · next text r ht =>
      cases h
      refine ⟨rfl, ?_⟩
      rw [encode, counted_of_textField ht]
      rfl
    · cases h

/-- Settles O2: bytes that decode have a first byte that announces a form, and are that form of what they decode to. -/
theorem encodeUndoesDecode : Obligations.EncodeUndoesDecode := by
  intro bs i rest h
  cases bs with
  | nil => cases h
  | cons b bs =>
    simp only [decode] at h
    split at h
    · next k hk => exact encode_of_operands hk h
    · split at h <;> cases h

/-- Settles O3, by running the decoder on each word. -/
theorem wordsDecodeAsTheTablesSay : Obligations.WordsDecodeAsTheTablesSay :=
  ⟨rfl, rfl, rfl, rfl, rfl, rfl, rfl, rfl, rfl, rfl⟩

/-- Of the first bytes that are never sent, 0xC6 and 0xC7 fit the address command's row without naming a position
(entry 28), and the others fit no row. -/
theorem kindOf_neverSent : ∀ b : Byte, b ∉ Machine.firstBytes → 0x10 ≤ b.toNat → b ≠ 0x12#8 →
    kindOf b = some .cmdAddr ∧ addrPos b = none ∨ kindOf b = none ∧ reservedCode b = false := by decide

/-- Settles O4: a never-sent first byte is either an address command without a position or announces no form; both are
`noSuchOperation` (the model's choice, entries 28 and 29). -/
theorem neverSentBytesDecodeToNothing : Obligations.NeverSentBytesDecodeToNothing := by
  intro b rest notSent notCode notCounted
  obtain ⟨hk, hp⟩ | ⟨hk, hr⟩ := kindOf_neverSent b notSent notCode notCounted
  · simp only [decode_of_kindOf hk, operands, hp]
  · simp [decode, hk, hr]

end Sys2Proof
end

section
/-! The command bytes and what is sent in frames (30_encoding.md R49 to R51, R53; 42_command_frames.md R94). -/

namespace Sys2Proof

theorem addrByte_toNat (p : Position) : (addrByte p).toNat = 0xC0 + p.val := by
  revert p
  decide

theorem dispByte_toNat (b : BitVec 3) : (dispByte b).toNat = 0x88 + b.toNat := by
  revert b
  decide

@[simp] theorem addrByte_bit7 (p : Position) : (addrByte p).getLsbD 7 = true := by
  revert p
  decide

@[simp] theorem dispByte_bit7 (b : BitVec 3) : (dispByte b).getLsbD 7 = true := by
  revert b
  decide

namespace Machine

/-- What an operation that sends one byte outside a frame answers (41_wire_primitives.md R84, R87). -/
theorem running_sendByte (v : Byte) (s : State) :
    running (sendByte v) s = .next (s.emitted false (v.getLsbD 7) (byteT v)) :=
  running_emitAll (byteT v) s

/-- Settles O21: each of the three operations sends its byte as WRITE_BYTE does (DEDUCED, entry 15), which leaves the
byte's bit 7 on the data line. -/
theorem commandBytesOnTheWire : Obligations.CommandBytesOnTheWire := by
  intro s p b a c ha hc
  obtain rfl : a = addrByte p := BitVec.eq_of_toNat_eq (ha.trans (addrByte_toNat p).symm)
  obtain rfl : c = dispByte b := BitVec.eq_of_toNat_eq (hc.trans (dispByte_toNat b).symm)
  refine ⟨running_sendByte Config.cmdData s, ?address, ?display⟩
  case address =>
    rw [← addrByte_bit7 p]
    exact running_sendByte (addrByte p) s
  case display =>
    rw [← dispByte_bit7 b]
    exact running_sendByte (dispByte b) s

theorem cmdData_mem_firstBytes : Config.cmdData ∈ firstBytes := by decide

theorem addrByte_mem_firstBytes (p : Position) : addrByte p ∈ firstBytes := by
  revert p
  decide

theorem dispByte_mem_firstBytes (b : BitVec 3) : dispByte b ∈ firstBytes := by
  revert b
  decide

/-- The events are frames, one right after the other, each of which opens with a command byte. -/
def CommandFrames (es : List Event) : Prop :=
  ∃ fs : List (List Byte), es = fs.flatMap frameT ∧ ∀ f ∈ fs, ∃ a rest, f = a :: rest ∧ a ∈ firstBytes

theorem CommandFrames.nil : CommandFrames [] := ⟨[], rfl, nofun⟩

theorem CommandFrames.frame {a : Byte} (ha : a ∈ firstBytes) (rest : List Byte) : CommandFrames (frameT (a :: rest)) :=
  ⟨[a :: rest], (List.flatMap_singleton ..).symm, by
    intro f hf
    exact ⟨a, rest, List.mem_singleton.mp hf, ha⟩⟩

theorem CommandFrames.append {as bs : List Event} (ha : CommandFrames as) (hb : CommandFrames bs) :
    CommandFrames (as ++ bs) := by
  obtain ⟨fs, rfl, hf⟩ := ha
  obtain ⟨gs, rfl, hg⟩ := hb
  exact ⟨fs ++ gs, List.flatMap_append.symm, List.forall_mem_append.mpr ⟨hf, hg⟩⟩

theorem dataCmdT_commandFrames : CommandFrames dataCmdT := .frame cmdData_mem_firstBytes []

theorem dispCtrlT_commandFrames (b : BitVec 3) : CommandFrames (dispCtrlT b) := .frame (dispByte_mem_firstBytes b) []

theorem dataXferT_commandFrames (p : Position) (segs : Segs) : CommandFrames (dataXferT p segs) :=
  .frame (addrByte_mem_firstBytes p) (permuted segs)

theorem setBrightnessT_commandFrames (b : BitVec 3) : CommandFrames (setBrightnessT b) :=
  dataCmdT_commandFrames.append (dispCtrlT_commandFrames b)

theorem writeT_commandFrames (p : Position) (segs : Segs) (b : BitVec 3) : CommandFrames (writeT p segs b) :=
  (dataCmdT_commandFrames.append (dataXferT_commandFrames p segs)).append (dispCtrlT_commandFrames b)

/-- From `s` to `t` the operation has added command frames to the trace, after INIT's two drives when it is INIT. -/
def AddsCommandFrames (i : Instr) (s t : State) : Prop :=
  ∃ drives es, t.trace = s.trace ++ drives ++ es ∧ CommandFrames es ∧
    (drives = [] ∨ (∃ c d v, i = .init c d v) ∧ drives = [c0, d0])

theorem CommandFrames.adds {es : List Event} (hf : CommandFrames es) {i : Instr} {s t : State}
    (ht : t.trace = s.trace ++ es) : AddsCommandFrames i s t :=
  ⟨[], es, by rw [ht, List.append_nil], hf, .inl rfl⟩

/-- Everything a host's operation adds to the trace is command frames, but for INIT's two drives. -/
theorem exec_addsCommandFrames {i : Instr} {s t : State} (hi : engineOnly i = false) (h : exec i s = .next t) :
    AddsCommandFrames i s t := by
  cases i with
  | cmdData | cmdAddr _ | cmdDisp _ | start | stop | writeByte _ | dataCmd | dispCtrl => cases hi
  | init c d v =>
    obtain ⟨-, -, -, -, rfl⟩ := exec_next h
    refine ⟨[c0, d0], setBrightnessT (initBrightness v), ?_, setBrightnessT_commandFrames _, .inr ⟨⟨c, d, v, rfl⟩, rfl⟩⟩
    rw [List.append_assoc]
    rfl
  | setBrightness v =>
    obtain ⟨-, rfl⟩ := exec_next h
    exact (setBrightnessT_commandFrames _).adds rfl
  | write segs pos =>
    obtain ⟨-, -, rfl⟩ := exec_next h
    exact (writeT_commandFrames _ _ _).adds rfl
  | showText _ _ | showHex _ | showNumber _ =>
    obtain ⟨-, segs, -, -, rfl⟩ := exec_next h
    exact (writeT_commandFrames _ _ _).adds rfl
  | encodeDigit _ | encodeChar _ =>
    cases exec_next h
    exact CommandFrames.nil.adds (List.append_nil _).symm
  | encodeString _ =>
    obtain ⟨segs, -, rfl⟩ := exec_next h
    exact CommandFrames.nil.adds (List.append_nil _).symm

/-- Settles O27: the frames of a host's operation are command frames. -/
theorem onlyFifteenFirstBytes : Obligations.OnlyFifteenFirstBytes := by
  intro i s t hi h
  obtain ⟨drives, es, ht, ⟨fs, rfl, opens⟩, driven⟩ := exec_addsCommandFrames hi h
  exact ⟨drives, fs, ht, driven.imp_right And.right, opens⟩

end Machine

end Sys2Proof
end

section
/-! The operations that are defined wholly as others (30_encoding.md R62). -/

namespace Sys2Proof.Machine

theorem hexValue_eq {v : Int} {x : BitVec 16} (h : (x.toNat : Int) = v % 65536) : hexValue v = x := by
  rw [hexValue, ← h, BitVec.ofInt_natCast, BitVec.ofNat_toNat, BitVec.setWidth_eq]

/-- SHOW of a text that fits is the WRITE of its segment bytes at position 0; before INIT both are refused (R103). -/
theorem showOp_eq_writeOp {text : Text} {segs : Segs} (h : encodeString text = some segs) (s : State) :
    showOp text s = writeOp segs 0 s := by
  cases hi : s.inited with
  | false => simp only [showOp, writeOp, hi, if_true]
  | true => simp only [showOp, hi, h, Bool.true_eq_false, if_false]

/-- Settles O35: SHOW is a WRITE, SHOW_HEX and SHOW_NUMBER are the SHOW of their text, and the operands left out are those
of R62's table. -/
theorem pseudoOperationsExpand : Obligations.PseudoOperationsExpand := by
  intro s text colon segs v x c d hx
  refine ⟨fun fits => showOp_eq_writeOp fits s, ?hex, rfl, rfl, rfl, rfl⟩
  case hex =>
    rw [← hexValue_eq hx]
    rfl

end Sys2Proof.Machine
end

section
/-! What the encoder computes, and that it reads no state (40_segment_encoder.md R65 to R68, R71). -/

namespace Sys2Proof.Machine

/-! ## Table indices -/

theorem digitIndex_eq {v : Int} {k : Fin 39} (h : (k.val : Int) = v % 16) : digitIndex v = k := by
  apply Fin.ext
  rw [digitIndex, Fin.val_ofNat, ← h, Int.toNat_natCast, Nat.mod_eq_of_lt k.isLt]

/-- Settles O38: the table index is the value modulo 16. -/
theorem encodeDigitOperation : Obligations.EncodeDigitOperation := by
  intro s v k hk
  refine ⟨?_, segTable_bit7 k⟩
  rw [← digitIndex_eq hk]
  rfl

/-- The index ENCODE_CHAR reads, as a number: no range goes beyond the table's end. -/
theorem charIndex_val (ch : Byte) :
    (charIndex ch).val =
      if ch.toNat = 0x20 then 36
      else if ch.toNat = 0x2A then 38
      else if ch.toNat = 0x2D then 37
      else if 0x41 ≤ ch.toNat ∧ ch.toNat ≤ 0x5A then ch.toNat - 0x41 + 10
      else if 0x61 ≤ ch.toNat ∧ ch.toNat ≤ 0x7A then ch.toNat - 0x61 + 10
      else if 0x30 ≤ ch.toNat ∧ ch.toNat ≤ 0x39 then ch.toNat - 0x30
      else 38 := by
  simp only [charIndex, apply_ite Fin.val, Fin.val_ofNat]
  split_ifs <;> omega

/-- Settles O39, check by check: no code passes two checks with two indices. -/
theorem encodeCharOperation : Obligations.EncodeCharOperation := by
  intro s ch
  have index := charIndex_val ch
  refine ⟨charIndex ch, rfl, segTable_bit7 _, ?space, ?star, ?dash, ?upper, ?lower, ?digit, ?other⟩
  all_goals intros; split_ifs at index <;> omega

theorem encodeChar_bit7 (ch : Byte) : (encodeChar ch).getLsbD 7 = false := segTable_bit7 (charIndex ch)

/-! ## ENCODE_STRING's second pass, against the cells of the text -/

/-- What the text still to be read makes of the entries so far: a `.` at its head marks the last of them. -/
def markedBy (text : Text) (out : Segs) : Segs := if text.head? == some dot then markLast out else out

theorem markLast_concat (out : Segs) (x : Byte) : markLast (out ++ [x]) = out ++ [x ||| Config.auxBit] := by
  induction out using markLast.induct with
  | case1 | case2 => rfl
  | case3 a b rest ih => exact congrArg (a :: ·) ih

theorem markLast_markLast (out : Segs) : markLast (markLast out) = markLast out := by
  induction out using List.reverseRecOn with
  | nil => rfl
  | append_singleton out x => simp only [markLast_concat, BitVec.or_assoc, BitVec.or_self]

/-- Each further `.` after a character changes nothing (40_segment_encoder.md R67). -/
theorem markedBy_markLast (text : Text) (out : Segs) : markedBy text (markLast out) = markLast out := by
  unfold markedBy
  split
  · exact markLast_markLast out
  · rfl

/-- A character's entry, marked by what follows it, is the byte of its cell. -/
theorem markedBy_concat (rest : Text) (out : Segs) (c : Byte) :
    markedBy rest (out ++ [encodeChar c]) = out ++ [cellByte (c, rest.head? == some dot)] := by
  unfold markedBy cellByte
  split
  · exact markLast_concat out (encodeChar c)
  · rfl

theorem encodeNext_dot (out : Segs) : encodeNext out dot = markLast out := if_pos rfl

theorem encodeNext_of_ne_dot {c : Byte} (hc : c ≠ dot) (out : Segs) : encodeNext out c = out ++ [encodeChar c] :=
  if_neg hc

theorem cells_dot_cons (rest : Text) : cells (dot :: rest) = cells rest := if_pos rfl

theorem cells_cons_of_ne_dot {c : Byte} (hc : c ≠ dot) (rest : Text) :
    cells (c :: rest) = (c, rest.head? == some dot) :: cells rest := if_neg hc

/-- The second pass, from any entries on: a `.` at the head marks the last of them, and each cell adds its byte. -/
theorem encodeNext_foldl (text : Text) (out : Segs) :
    text.foldl encodeNext out = markedBy text out ++ (cells text).map cellByte := by
  induction text generalizing out with
  | nil => exact (List.append_nil out).symm
  | cons c rest ih =>
    rw [List.foldl_cons, ih]
    by_cases hc : c = dot
    · subst hc
      rw [encodeNext_dot, markedBy_markLast, cells_dot_cons]
      rfl
    · have unmarked : markedBy (c :: rest) out = out := if_neg (by simpa using hc)
      rw [encodeNext_of_ne_dot hc, markedBy_concat, cells_cons_of_ne_dot hc, unmarked, List.append_assoc]
      rfl

/-- The second pass gives the bytes of the text's cells; a leading `.` is dropped. -/
theorem encodePass_eq_cells (text : Text) : encodePass text = (cells text).map cellByte := by
  have noEntry : markedBy text [] = [] := ite_self []
  rw [encodePass, encodeNext_foldl, noEntry, List.nil_append]

theorem cells_length (text : Text) : (cells text).length = symbols text := by
  rw [← encodePass_length, encodePass_eq_cells, List.length_map]

theorem ne_dot_of_mem_cells {text : Text} {cell : Byte × Bool} (h : cell ∈ cells text) : cell.1 ≠ dot := by
  induction text with
  | nil => cases h
  | cons c rest ih =>
    by_cases hc : c = dot
    · rw [hc, cells_dot_cons] at h
      exact ih h
    · rw [cells_cons_of_ne_dot hc] at h
      obtain rfl | later := List.mem_cons.mp h
      · exact hc
      · exact ih later

/-- Bit 7 of a cell's byte says whether a `.` follows its character: the table leaves it clear. -/
theorem cellByte_bit7 (cell : Byte × Bool) : (cellByte cell).getLsbD 7 = cell.2 := by
  obtain ⟨c, dotted⟩ := cell
  cases dotted with
  | false => exact encodeChar_bit7 c
  | true =>
    rw [cellByte, if_pos rfl, BitVec.getLsbD_or, encodeChar_bit7]
    rfl

/-! ## Texts that fit, and texts that are too long -/

theorem encodeString_eq_cells {text : Text} (h : symbols text ≤ 6) :
    encodeString text = some ((cells text).map cellByte ++ List.replicate (6 - symbols text) blank) := by
  rw [encodeString_isSome h, padBlank, encodePass_length, encodePass_eq_cells]
  rfl

theorem encodeString_eq_none {text : Text} (h : symbols text > 6) : encodeString text = none := if_pos h

theorem exec_encodeString_of_long {text : Text} (h : symbols text > 6) (s : State) :
    exec (.encodeString text) s = .refused .textTooLong := by
  simp only [exec, execEncodeString, encodeString_eq_none h]

theorem showOp_of_long {text : Text} (h : symbols text > 6) {s : State} (initialised : s.inited = true) :
    showOp text s = .refused .textTooLong := by
  simp only [showOp, initialised, encodeString_eq_none h, Bool.true_eq_false, if_false]

/-- Settles O40: the second pass gives the bytes of the text's cells, and blanks fill them up to six. -/
theorem encodeStringOperation : Obligations.EncodeStringOperation := by
  intro s text
  refine ⟨fun long => exec_encodeString_of_long long s, fun fits => ⟨?result, cells_length text, ?padding, ?marks⟩⟩
  case result => exact exec_encodeString (encodeString_eq_cells fits) s
  case padding =>
    intro e he
    rw [List.eq_of_mem_replicate he]
    exact segTable_bit7 36
  case marks =>
    intro cell hcell
    exact ⟨ne_dot_of_mem_cells hcell, by rw [cellByte_bit7]⟩

/-- Settles O41: the check on the text's length is ENCODE_STRING's, and SHOW, SHOW_HEX and SHOW_NUMBER make it on the
text they show. -/
theorem longTextsAreRefused : Obligations.LongTextsAreRefused :=
  fun _ _ _ _ long initialised => ⟨exec_encodeString_of_long long, showOp_of_long long initialised, rfl, rfl⟩

/-- Settles O43, operation by operation: one value for all states, or, for a text that is too long, one refusal. -/
theorem encoderOperationsArePure : Obligations.EncoderOperationsArePure := by
  intro i encoder
  obtain ⟨v, rfl⟩ | ⟨ch, rfl⟩ | ⟨text, rfl⟩ := encoder
  · exact .inl ⟨.byte (encodeDigit v), fun _ => rfl⟩
  · exact .inl ⟨.byte (encodeChar ch), fun _ => rfl⟩
  · obtain long | fits := Nat.lt_or_ge 6 (symbols text)
    · exact .inr ⟨⟨text, rfl, long⟩, exec_encodeString_of_long long⟩
    · exact .inl ⟨_, exec_encodeString (encodeString_isSome fits)⟩

end Sys2Proof.Machine
end

section
/-! The wire primitives: events, START, STOP, WRITE_BYTE and the levels they leave (41_wire_primitives.md R82 to R87). -/

namespace Sys2Proof.Machine

/-- Settles O16: `emit` on each of the three events, as it is defined. -/
theorem eventsActOnLinesAndTrace : Obligations.EventsActOnLinesAndTrace := fun _ _ _ => ⟨rfl, rfl, rfl⟩

/-- What START answers: its sequence and both lines low (R82, R87). -/
theorem exec_start (s : State) : exec .start s = .next (s.emitted false false startT) := running_emitAll startT s

/-- What STOP answers: its sequence and both lines high (R83, R87). -/
theorem exec_stop (s : State) : exec .stop s = .next (s.emitted true true stopT) := running_emitAll stopT s

/-- What WRITE_BYTE answers: its sequence, the clock low and the byte's bit 7 on the data line (R84, R87). -/
theorem exec_writeByte (v : Byte) (s : State) :
    exec (.writeByte v) s = .next (s.emitted false (v.getLsbD 7) (byteT v)) := running_sendByte v s

/-- Settles O17: `START_T` written out. -/
theorem startCondition : Obligations.StartCondition := exec_start

/-- Settles O18: `STOP_T` written out. -/
theorem stopCondition : Obligations.StopCondition := exec_stop

theorem dioSetWhileLow_bitT (b : Level) (es : List Event) :
    dioSetWhileLow false (bitT b ++ es) = dioSetWhileLow false es := rfl

theorem dioSetWhileLow_ackT : dioSetWhileLow false ackT = true := rfl

/-- A byte sent with the clock low sets `DIO` only while the clock is low: every bit finds it low and leaves it low (R84,
corner case (b)). -/
theorem dioSetWhileLow_byteT (v : Byte) : dioSetWhileLow false (byteT v) = true := by
  rw [byteT_eq]
  simp only [List.append_assoc, dioSetWhileLow_bitT, dioSetWhileLow_ackT]

/-- Settles O19: `BYTE_T(v)` written out, bit 0 first, and its data line. -/
theorem writeByteBitByBit : Obligations.WriteByteBitByBit :=
  fun v s => ⟨exec_writeByte v s, dioSetWhileLow_byteT v⟩

/-- Settles O20: what each of the three primitives answers, whatever the levels on entry. -/
theorem levelsOnExit : Obligations.LevelsOnExit := fun s v =>
  ⟨⟨_, exec_start s, rfl, rfl⟩, ⟨_, exec_writeByte v s, rfl, rfl⟩, ⟨_, exec_stop s, rfl, rfl⟩⟩

end Sys2Proof.Machine
end

section
/-! SUPPORT. What one operation of the host adds to the run of held level changes (41_wire_primitives.md R88): INIT begins
it, every other operation goes on from both lines high and leaves them high. -/

namespace Sys2Proof.Machine

/-! ## Frames -/

/-- The events may follow a level change at once when both lines are high, hold level changes apart from there, and leave
both lines high. -/
structure KeepsHigh (es : List Event) : Prop where
  apart : ∀ fresh, heldApart true true fresh es = true
  clkHigh : levelAfter .clk es true = true
  dioHigh : levelAfter .dio es true = true

theorem KeepsHigh.nil : KeepsHigh [] := ⟨fun _ => rfl, rfl, rfl⟩

theorem KeepsHigh.append {as bs : List Event} (ha : KeepsHigh as) (hb : KeepsHigh bs) : KeepsHigh (as ++ bs) where
  apart fresh := heldApart_append as bs _ _ fresh (ha.apart fresh) (by rw [ha.clkHigh, ha.dioHigh]; exact hb.apart)
  clkHigh := by rw [levelAfter_append, ha.clkHigh, hb.clkHigh]
  dioHigh := by rw [levelAfter_append, ha.dioHigh, hb.dioHigh]

/-- After a start condition the bytes and the stop condition hold level changes apart. -/
theorem heldApart_bytes_stopT (bs : List Byte) : ∀ d : Level,
    heldApart false d false (bs.flatMap byteT ++ stopT) = true := by
  induction bs with
  | nil => exact fun d => by rw [List.flatMap_nil, List.nil_append, ← List.append_nil stopT, heldApart_stopT]; rfl
  | cons b bs ih => exact fun d => by rw [List.flatMap_cons, List.append_assoc, heldApart_byteT, ih]

theorem keepsHigh_frameT (bs : List Byte) : KeepsHigh (frameT bs) where
  apart fresh := by rw [frameT, List.append_assoc, heldApart_startT, heldApart_bytes_stopT]
  clkHigh := levelAfter_clk_frameT bs true
  dioHigh := levelAfter_dio_frameT bs true

theorem KeepsHigh.of_commandFrames {es : List Event} (h : CommandFrames es) : KeepsHigh es := by
  obtain ⟨fs, rfl, -⟩ := h
  induction fs with
  | nil => exact .nil
  | cons f fs ih =>
    rw [List.flatMap_cons]
    exact (keepsHigh_frameT f).append ih

/-! ## INIT -/

/-- INIT's two drives and the first set of its first frame, which nothing holds apart (43_host_operations.md R100). -/
def initSets : List Event := [.set .clk false, .set .dio false, .set .clk true]

/-- INIT's events after its first three sets. -/
def initTail (b : BitVec 3) : List Event := dataCmdT.tail ++ dispCtrlT b

theorem initT_eq (b : BitVec 3) : initT b = initSets ++ initTail b := rfl

/-- What follows the first set of the frame after INIT's drives. The data line is low there, so that the start condition
raises it before it lowers it, each after a wait. -/
theorem heldSinceInit_tail_frameT (bs : List Byte) : HeldSinceInit (frameT bs).tail where
  apart := heldApart_bytes_stopT bs false
  clkHigh := levelAfter_clk_frameT bs true
  dioHigh := levelAfter_dio_frameT bs false

theorem HeldSinceInit.keepsHigh {rest more : List Event} (h : HeldSinceInit rest) (hm : KeepsHigh more) :
    HeldSinceInit (rest ++ more) := h.append hm.apart hm.clkHigh hm.dioHigh

theorem heldSinceInit_initTail (b : BitVec 3) : HeldSinceInit (initTail b) :=
  (heldSinceInit_tail_frameT _).keepsHigh (keepsHigh_frameT _)

/-- INIT begins a run. -/
theorem exec_init_begins {c d : Option LineId} {v : Int} {s t : State} (h : exec (.init c d v) s = .next t) :
    s.inited = false ∧ t.inited = true ∧ ∃ rest, t.trace = s.trace ++ (initSets ++ rest) ∧ HeldSinceInit rest := by
  obtain ⟨uninit, -, -, -, rfl⟩ := exec_next h
  exact ⟨uninit, rfl, _, rfl, heldSinceInit_initTail _⟩

/-! ## The other operations of the host -/

/-- Every operation of the host but INIT goes on with the run. -/
theorem exec_keepsHigh {i : Instr} {s t : State} (hi : engineOnly i = false) (notInit : ∀ c d v, i ≠ .init c d v)
    (h : exec i s = .next t) : ∃ es, t.trace = s.trace ++ es ∧ KeepsHigh es := by
  obtain ⟨drives, es, ht, frames, rfl | ⟨⟨c, d, v, isInit⟩, -⟩⟩ := exec_addsCommandFrames hi h
  · exact ⟨es, by rw [ht, List.append_nil], .of_commandFrames frames⟩
  · exact absurd isInit (notInit c d v)

/-- Before INIT the other operations of the host send nothing (70_reset_and_hazards.md R141). -/
theorem exec_trace_of_uninitialised {i : Instr} {s t : State} (hi : engineOnly i = false)
    (notInit : ∀ c d v, i ≠ .init c d v) (uninit : s.inited = false) (h : exec i s = .next t) : t.trace = s.trace := by
  cases exec_answers h with
  | sends _ _ _ _ byHost =>
    obtain ⟨initialised, -⟩ := byHost hi
    simp [uninit] at initialised
  | inits c d v => exact absurd rfl (notInit c d v)
  | setsBrightness _ _ _ initialised => simp [uninit] at initialised
  | returns => rfl

/-- Settles O49: INIT begins a run, every other operation goes on with one. -/
theorem levelChangesAreHeldApart : Obligations.LevelChangesAreHeldApart := by
  intro i s t hi h
  by_cases isInit : ∃ c d v, i = .init c d v
  · obtain ⟨c, d, v, rfl⟩ := isInit
    obtain ⟨-, -, rest, ht, held⟩ := exec_init_begins h
    exact .inl ⟨c, d, v, rfl, rest, by rw [ht, ← List.append_assoc]; rfl, held.apart⟩
  · have notInit : ∀ c d v, i ≠ .init c d v := fun c d v hj => isInit ⟨c, d, v, hj⟩
    obtain ⟨es, ht, held⟩ := exec_keepsHigh hi notInit h
    exact .inr ⟨notInit, es, ht, held.apart true⟩

end Sys2Proof.Machine
end

section
/-! What one step adds to the run of held level changes, and that the whole trace holds them apart (41_wire_primitives.md
R88, 70_reset_and_hazards.md R147). -/

namespace Sys2Proof.Machine

/-- The events of a whole operation of the host, by `INITED` before and after it: INIT begins a run, the operations after
it go on with the run, and before it there are none. -/
inductive RunEvents : Bool → Bool → List Event → Prop
  | begins {rest : List Event} (held : HeldSinceInit rest) : RunEvents false true (initSets ++ rest)
  | continues {es : List Event} (held : KeepsHigh es) : RunEvents true true es
  | nothing : RunEvents false false []

/-- The engine waits: no events. -/
theorem RunEvents.nil : ∀ inited, RunEvents inited inited []
  | true => .continues .nil
  | false => .nothing

theorem exec_runEvents {i : Instr} {s t : State} (hi : engineOnly i = false) (h : exec i s = .next t) :
    ∃ es, t.trace = s.trace ++ es ∧ RunEvents s.inited t.inited es := by
  by_cases isInit : ∃ c d v, i = .init c d v
  · obtain ⟨c, d, v, rfl⟩ := isInit
    obtain ⟨uninit, init, rest, ht, held⟩ := exec_init_begins h
    exact ⟨_, ht, by rw [uninit, init]; exact .begins held⟩
  · have notInit : ∀ c d v, i ≠ .init c d v := fun c d v hj => isInit ⟨c, d, v, hj⟩
    obtain ⟨-, -, -, -, keeps, -⟩ := whatOperationsLeaveAlone i s t h
    rw [(keeps notInit).1]
    cases initialised : s.inited with
    | false =>
      exact ⟨[], by rw [exec_trace_of_uninitialised hi notInit initialised h, List.append_nil], .nothing⟩
    | true =>
      obtain ⟨es, ht, held⟩ := exec_keepsHigh hi notInit h
      exact ⟨es, ht, .continues held⟩

/-- What a step does to `INITED`, the resets and the trace: it adds the events of a whole operation, or a front of them that
a reset ends. -/
inductive StepAdds (s t : State) : Prop
  | whole (es : List Event) (events : RunEvents s.inited t.inited es) (resets : t.resets = s.resets)
      (trace : t.trace = s.trace ++ es)
  | cut (k : Nat) (es : List Event) (after : Bool) (events : RunEvents s.inited after es) (uninit : t.inited = false)
      (resets : t.resets = s.resets + 1) (trace : t.trace = s.trace ++ es.take k)

theorem eventsSince_of_trace {s t : State} {es : List Event} (h : t.trace = s.trace ++ es) : eventsSince s t = es := by
  rw [eventsSince, h, List.drop_left]

theorem settled_adds {i : Instr} {s u : State} (hi : engineOnly i = false) (h : exec i s = .next u)
    (cut : Option Nat) : StepAdds s (settled cut s u) := by
  obtain ⟨es, ht, events⟩ := exec_runEvents hi h
  cases cut with
  | none =>
    obtain ⟨-, -, resets, -⟩ := whatOperationsLeaveAlone i s u h
    exact .whole es events resets ht
  | some k =>
    rw [settled, eventsSince_of_trace ht, State.cutShort_eq]
    exact .cut k es _ events rfl rfl rfl

/-- A request that waits where only the host issues is the host's. -/
theorem issuer_eq_host {s : State} {who : Issuer} {bytes : List Byte} {cut : Option Nat} {rest : List Input}
    (hosts : s.inputs.all Input.fromHost = true) (hs : s.inputs = .request who bytes cut :: rest) : who = .host := by
  cases who with
  | host => rfl
  | engine => simp [hs, Input.fromHost] at hosts

theorem step_adds {s t : State} (hosts : s.inputs.all Input.fromHost = true) (h : step s = .next t) : StepAdds s t := by
  obtain ⟨rfl, -⟩ | ⟨rest, -, rfl⟩ | ⟨who, bytes, cut, rest, i, u, hs, -, hadm, he, rfl⟩ := step_next h
  · exact .whole [] (.nil _) rfl (List.append_nil _).symm
  · exact .cut 0 [] _ (.nil _) rfl rfl (List.append_nil _).symm
  · have byHost : engineOnly i = false := by simpa [issuer_eq_host hosts hs] using (admitted_ok hadm).2
    obtain ⟨es, events, resets, trace⟩ | ⟨k, es, after, events, uninit, resets, trace⟩ := settled_adds byHost he cut
    · exact .whole es events resets trace
    · exact .cut k es after events uninit resets trace

theorem HeldSinceInit.heldRun {rest : List Event} (h : HeldSinceInit rest) : HeldRun (initSets ++ rest) :=
  .inr ⟨rest, rfl, h.apart⟩

/-- A reset inside an operation that goes on with a run leaves it held apart. -/
theorem HeldSinceInit.apart_take {rest es : List Event} (h : HeldSinceInit rest) (he : KeepsHigh es) (k : Nat) :
    heldApart true false true (rest ++ es.take k) = true :=
  heldApart_of_append _ (es.drop k) _ _ _
    (by rw [List.append_assoc, List.take_append_drop]; exact (h.keepsHigh he).apart)

/-- Settles O52, by what a step adds: a whole operation, or the front of one that a reset leaves; and which operation may run
before INIT and after it. -/
theorem runsBeginAtInitAndEndAtResets : Obligations.RunsBeginAtInitAndEndAtResets := by
  intro s t hosts hstep
  have adds := step_adds hosts hstep
  constructor
  case left =>
    intro before
    obtain ⟨es, events, resets, trace⟩ | ⟨k, es, after, events, uninit, resets, trace⟩ := adds
    · rw [before] at events
      generalize t.inited = now at events ⊢
      cases events with
      | begins held => exact ⟨fun _ => ⟨resets, _, trace, held⟩, nofun⟩
      | nothing => exact ⟨nofun, fun _ => .inl (by rw [trace, List.append_nil])⟩
    · refine ⟨fun init => by simp [uninit] at init, fun _ => .inr ⟨resets, _, trace, ?_⟩⟩
      rw [before] at events
      cases events with
      | begins held => exact held.heldRun.take k
      | nothing => exact .inl (by simp)
  case right =>
    intro before earlier rest hs held
    obtain ⟨es, events, resets, trace⟩ | ⟨k, es, after, events, uninit, resets, trace⟩ := adds
    · rw [before] at events
      generalize t.inited = now at events ⊢
      cases events with
      | continues high =>
        have more := held.keepsHigh high
        exact ⟨es, by rw [trace, hs]; simp, more.apart, fun _ => ⟨resets, more⟩, nofun⟩
    · rw [before] at events
      cases events with
      | continues high =>
        exact ⟨es.take k, by rw [trace, hs]; simp, held.apart_take high k, fun init => by simp [uninit] at init,
          fun _ => resets⟩

/-- No step takes a reset back. -/
theorem step_resets_le {s t : State} (hosts : s.inputs.all Input.fromHost = true) (h : step s = .next t) :
    s.resets ≤ t.resets := by
  cases step_adds hosts h with
  | whole _ _ resets => exact resets.ge
  | cut _ _ _ _ _ resets => exact resets ▸ Nat.le_succ _

theorem settled_inputs {i : Instr} {s u : State} (h : exec i s = .next u) (cut : Option Nat) :
    (settled cut s u).inputs = s.inputs := by
  cases cut with
  | none =>
    obtain ⟨-, inputs, -⟩ := whatOperationsLeaveAlone i s u h
    exact inputs
  | some k => rw [settled, State.cutShort_eq]; rfl

/-- A step leaves what waits at the port, or takes its first input. -/
theorem step_inputs_suffix {s t : State} (h : step s = .next t) : t.inputs <:+ s.inputs := by
  obtain ⟨rfl, -⟩ | ⟨rest, hs, rfl⟩ | ⟨who, bytes, cut, rest, i, u, hs, -, -, he, rfl⟩ := step_next h
  · exact List.suffix_rfl
  · exact hs ▸ List.suffix_cons _ rest
  · rw [settled_inputs he, hs]
    exact List.suffix_cons _ rest

theorem step_fromHost {s t : State} (hosts : s.inputs.all Input.fromHost = true) (h : step s = .next t) :
    t.inputs.all Input.fromHost = true :=
  List.all_eq_true.mpr fun x hx => List.all_eq_true.mp hosts x ((step_inputs_suffix h).subset hx)

theorem State.Held.step {s t : State} (h : s.Held) (hstep : Machine.step s = .next t) : t.Held := by
  obtain ⟨beforeInit, afterInit⟩ := runsBeginAtInitAndEndAtResets s t h.fromHost hstep
  cases initialised : s.inited with
  | false =>
    obtain ⟨begins, stays⟩ := beforeInit initialised
    have past := h.before initialised
    refine ⟨step_fromHost h.fromHost hstep, fun uninit => ?_, fun init => ?_⟩
    · obtain same | ⟨resets, run, trace, held⟩ := stays uninit
      · exact same ▸ past.mono (step_resets_le h.fromHost hstep)
      · rw [resets, trace]
        exact past.snoc held
    · obtain ⟨resets, rest, trace, held⟩ := begins init
      exact ⟨s.trace, rest, trace, resets ▸ past, held⟩
  | true =>
    obtain ⟨earlier, rest, hs, past, held⟩ := h.current initialised
    obtain ⟨more, trace, apart, goesOn, ends⟩ := afterInit initialised earlier rest hs held
    refine ⟨step_fromHost h.fromHost hstep, fun uninit => ?_, fun init => ?_⟩
    · rw [ends uninit, trace]
      exact past.snoc (.inr ⟨_, rfl, apart⟩)
    · obtain ⟨resets, still⟩ := goesOn init
      exact ⟨earlier, rest ++ more, trace, resets ▸ past, still⟩

/-- The open run, while there is one, is one more than the finished ones. -/
theorem State.Held.heldThroughout {s : State} (h : s.Held) : HeldThroughout (s.resets + 1) s.trace := by
  cases initialised : s.inited with
  | false => exact (h.before initialised).mono (Nat.le_succ _)
  | true =>
    obtain ⟨earlier, rest, hs, past, held⟩ := h.current initialised
    exact hs ▸ past.snoc held.heldRun

/-- Without a reset the trace is empty or one run. -/
theorem State.Held.one_run {s : State} (h : s.Held) (noReset : s.resets = 0) :
    s.trace = [] ∨ ∃ rest, s.trace = initSets ++ rest ∧ heldApart true false true rest = true := by
  cases initialised : s.inited with
  | false => exact .inl (noReset ▸ h.before initialised).eq_nil
  | true =>
    obtain ⟨earlier, rest, hs, past, held⟩ := h.current initialised
    obtain rfl := (noReset ▸ past).eq_nil
    exact .inr ⟨rest, hs, held.apart⟩

/-- Settles O51: the invariant goes on where runs begin at INIT and end at resets, and it bounds the runs of the trace. -/
theorem everyStepKeepsLevelChangesApart : Obligations.EveryStepKeepsLevelChangesApart :=
  ⟨fun _ _ h => h.step, fun _ h => h.heldThroughout, fun _ h => h.one_run⟩

end Sys2Proof.Machine
end

section
/-! The command frames: what a frame is, the two frames the engine sends by themselves, and that everything is sent in
frames but INIT's two drives (42_command_frames.md R90, R91, R94). -/

namespace Sys2Proof.Machine

/-- What DATA_CMD answers: its frame, which leaves both lines high (R90, R94). -/
theorem exec_dataCmd (s : State) : exec .dataCmd s = .next (s.emitted true true dataCmdT) := by
  rw [exec, execDataCmd, funext dataCmd_eq]
  exact running_emitAll dataCmdT s

/-- What DISP_CTRL answers: the frame of its byte, which carries the brightness at its acceptance (R91, R94). -/
theorem exec_dispCtrl (s : State) : exec .dispCtrl s = .next (s.emitted true true (dispCtrlT s.bright)) := by
  rw [exec, execDispCtrl, running, dispCtrl_eq]
  exact running_emitAll (dispCtrlT s.bright) s

/-- Settles O23: `DATA_CMD_T` written out. -/
theorem dataCommandFrame : Obligations.DataCommandFrame := exec_dataCmd

/-- Settles O24: `DISP_CTRL_T` written out, with its byte. -/
theorem displayControlFrame : Obligations.DisplayControlFrame := exec_dispCtrl

theorem countSets_append (as bs : List Event) : countSets (as ++ bs) = countSets as + countSets bs := by
  simp only [countSets, List.filter_append, List.length_append]

/-- Every event is a set or a wait (R80). -/
theorem countSets_add_countWaits (es : List Event) : countSets es + countWaits es = es.length :=
  (List.length_eq_length_filter_add Event.isSet).symm

theorem countSets_byteT (v : Byte) : countSets (byteT v) = 27 := rfl

theorem countSets_flatMap_byteT (bs : List Byte) : countSets (bs.flatMap byteT) = 27 * bs.length := by
  induction bs with
  | nil => rfl
  | cons b bs ih =>
    rw [List.flatMap_cons, countSets_append, countSets_byteT, ih, List.length_cons]
    omega

theorem countSets_frameT (bs : List Byte) : countSets (frameT bs) = 8 + 27 * bs.length := by
  have start : countSets startT = 4 := rfl
  have stop : countSets stopT = 4 := rfl
  rw [frameT, countSets_append, countSets_append, countSets_flatMap_byteT, start, stop]
  omega

/-- The waits are the events that are no sets. -/
theorem countWaits_frameT (bs : List Byte) : countWaits (frameT bs) = 7 + 27 * bs.length := by
  have all := countSets_add_countWaits (frameT bs)
  rw [countSets_frameT, frameT_length] at all
  omega

/-- Settles O22: the size of a frame and its exit levels from its parts; and the frames a host's operation adds open with a
command byte, so none is empty. -/
theorem everythingIsSentInFrames : Obligations.EverythingIsSentInFrames := by
  constructor
  case left =>
    exact fun bs _ => ⟨rfl, frameT_length bs, countSets_frameT bs, countWaits_frameT bs, fun s =>
      ⟨(State.emitAll_clk _ s).trans (levelAfter_clk_frameT bs _),
        (State.emitAll_dio _ s).trans (levelAfter_dio_frameT bs _)⟩⟩
  case right =>
    intro i s t hi h
    obtain ⟨drives, es, ht, ⟨fs, rfl, opens⟩, driven⟩ := exec_addsCommandFrames hi h
    refine ⟨drives, fs, ht, fun f hf => ?_, driven⟩
    obtain ⟨a, rest, rfl, -⟩ := opens f hf
    exact List.cons_ne_nil a rest

end Sys2Proof.Machine
end

section
/-! The permutation of segment bytes (42_command_frames.md R92, R96). -/

namespace Sys2Proof.Machine

/-- Each group of three is reversed in place. -/
theorem perm_group (g : Nat) {r : Nat} (hr : r < 3) : perm (3 * g + r) = 3 * g + (2 - r) := by
  unfold perm
  omega

/-- Reversing a group twice gives it back. -/
theorem perm_perm (i : Nat) : perm (perm i) = i := by
  have within : i % 3 < 3 := Nat.mod_lt i (by decide)
  have mirrored : 2 - i % 3 < 3 := by omega
  calc perm (perm i) = perm (perm (3 * (i / 3) + i % 3)) := by rw [Nat.div_add_mod]
    _ = 3 * (i / 3) + (2 - (2 - i % 3)) := by rw [perm_group _ within, perm_group _ mirrored]
    _ = i := by omega

/-- The formula never goes below 0. -/
theorem perm_cast (i : Nat) : ((perm i : Nat) : Int) = ((i / 3 : Nat) : Int) * 6 + 2 - i := by
  unfold perm
  omega

/-- Settles O25: group by group, and the indices and bytes written out. -/
theorem permutationReversesGroups : Obligations.PermutationReversesGroups :=
  ⟨perm_cast, fun g _ hr => perm_group g hr, perm_perm, rfl, permuted_six⟩

/-- The permutation loses no byte of a sequence that DATA_XFER takes. -/
theorem permuted_length {segs : Segs} (h : segCountOk segs = true) : (permuted segs).length = segs.length := by
  obtain six | three : segs.length = 6 ∨ segs.length = 3 := by simpa [segCountOk] using h
  · match segs, six with
    | [s0, s1, s2, s3, s4, s5], _ => rw [permuted_six]; rfl
  · match segs, three with
    | [s0, s1, s2], _ => rw [permuted_three]; rfl

theorem permuted_segCountOk {segs : Segs} (h : segCountOk segs = true) : segCountOk (permuted segs) = true := by
  rw [segCountOk, permuted_length h]
  exact h

end Sys2Proof.Machine
end

section
/-! The order of the frames (42_command_frames.md R95). -/

namespace Sys2Proof.Machine

theorem isDispFrame_dispByte (b : BitVec 3) : isDispFrame [dispByte b] = true := by
  revert b
  decide

theorem addrByte_base (p : Position) : addrByte p &&& 0xF8#8 = 0xC0#8 := by
  revert p
  decide

/-- DATA_XFER's frame is an address command with as many segment bytes as it takes. -/
theorem isAddrFrame_permuted (p : Position) {segs : Segs} (h : segCountOk segs = true) :
    isAddrFrame (addrByte p :: permuted segs) = true := by
  simp [isAddrFrame, addrByte_base, permuted_segCountOk h]

/-- An update of the content: a data command, an address command with six or three segment bytes, a display control. -/
theorem writeT_isUpdate (p : Position) {segs : Segs} (h : segCountOk segs = true) {counts : List Nat}
    (counted : segs.length ∈ counts) (b : BitVec 3) :
    ∃ (a : Byte) (data : List Byte), isAddrFrame (a :: data) = true ∧ data.length ∈ counts ∧
      writeT p segs b = frameT [Config.cmdData] ++ frameT (a :: data) ++ frameT [dispByte b] :=
  ⟨addrByte p, permuted segs, isAddrFrame_permuted p h, (permuted_length h).symm ▸ counted, rfl⟩

/-- SHOW's text always makes six segment bytes. -/
theorem writeT_encoded_isUpdate (p : Position) {text : Text} {segs : Segs} (h : encodeString text = some segs)
    (b : BitVec 3) :
    ∃ (a : Byte) (data : List Byte), isAddrFrame (a :: data) = true ∧ data.length ∈ [6] ∧
      writeT p segs b = frameT [Config.cmdData] ++ frameT (a :: data) ++ frameT [dispByte b] :=
  writeT_isUpdate p (encodeString_segCountOk h) (List.mem_singleton.mpr (encodeString_length h)) b

/-- Settles O26, operation by operation: the frames of each are those of its trace. -/
theorem framesComeInTheRequiredOrder : Obligations.FramesComeInTheRequiredOrder := by
  intro i s t hi h
  cases i with
  | cmdData | cmdAddr _ | cmdDisp _ | start | stop | writeByte _ | dataCmd | dispCtrl => cases hi
  | init c d v =>
    obtain ⟨-, -, -, -, rfl⟩ := exec_next h
    rfl
  | setBrightness v =>
    obtain ⟨-, rfl⟩ := exec_next h
    rfl
  | write segs pos =>
    obtain ⟨-, taken, rfl⟩ := exec_next h
    have counted : segs.length ∈ [6, 3] := by simpa [segCountOk] using taken
    obtain ⟨a, data, isAddr, count, frames⟩ := writeT_isUpdate (clampPosition pos) taken counted s.bright
    exact ⟨a, data, isAddr, count, congrArg (s.trace ++ ·) frames⟩
  | showText _ _ | showHex _ | showNumber _ =>
    obtain ⟨-, segs, encoded, -, rfl⟩ := exec_next h
    obtain ⟨a, data, isAddr, count, frames⟩ := writeT_encoded_isUpdate 0 encoded s.bright
    exact ⟨a, data, isAddr, count, congrArg (s.trace ++ ·) frames⟩
  | encodeDigit _ | encodeChar _ =>
    cases exec_next h
    exact ⟨(List.append_nil _).symm, rfl⟩
  | encodeString _ =>
    obtain ⟨segs, -, rfl⟩ := exec_next h
    exact ⟨(List.append_nil _).symm, rfl⟩

end Sys2Proof.Machine
end

section
/-! What the observer (non-normative, entry 19) reads of whole frames, and that every step keeps the wire in order
(42_command_frames.md R94, R95; 92_eei_decisions.md D22). -/

namespace Sys2Proof.Machine

/-! ## The observer on whole frames -/

theorem seeAll_flatMap_byteT (bs : List Byte) : ∀ (d : Level) (bytes : List Byte) (fs : List (List Byte)),
    ∃ e : Level, (⟨some false, some d, some ⟨0, [], bytes⟩, fs⟩ : Observer).seeAll (bs.flatMap byteT) =
      ⟨some false, some e, some ⟨0, [], bytes ++ bs⟩, fs⟩ := by
  induction bs with
  | nil => exact fun d bytes fs => ⟨d, by rw [List.append_nil]; rfl⟩
  | cons b bs ih =>
    intro d bytes fs
    obtain ⟨e, rest⟩ := ih (b.getLsbD 7) (bytes ++ [b]) fs
    refine ⟨e, ?_⟩
    rw [List.flatMap_cons, seeAll_append, seeAll_byteT, rest, List.append_assoc]
    rfl

/-- Outside a frame, whatever levels it has seen, the observer reads a frame's bytes back, and then stands outside it with
both lines high. -/
theorem seeAll_frameT {o : Observer} (outside : o.frame = none) (bs : List Byte) :
    o.seeAll (frameT bs) = ⟨some true, some true, none, o.done ++ [bs]⟩ := by
  obtain ⟨e, bytes⟩ := seeAll_flatMap_byteT bs false [] o.done
  rw [frameT, seeAll_append, seeAll_append, seeAll_startT o outside, bytes, seeAll_stopT]
  rfl

/-- The same of frames one right after the other. -/
theorem seeAll_frames (fs : List (List Byte)) : ∀ {o : Observer}, o.frame = none → ∀ f : List Byte,
    o.seeAll ((f :: fs).flatMap frameT) = ⟨some true, some true, none, o.done ++ f :: fs⟩ := by
  induction fs with
  | nil => exact fun outside f => by rw [List.flatMap_singleton, seeAll_frameT outside]
  | cons g fs ih =>
    intro o outside f
    rw [List.flatMap_cons, seeAll_append, seeAll_frameT outside, ih rfl g, List.append_assoc]
    rfl

/-- INIT's two drives, the clock first, neither open a frame nor close one. -/
theorem seeAll_drives {o : Observer} (outside : o.frame = none) :
    o.seeAll [c0, d0] = ⟨some false, some false, none, o.done⟩ := by
  obtain ⟨c, d, f, fs⟩ := o
  obtain rfl : f = none := outside
  simp [Observer.seeAll, Observer.see, c0, d0]

/-! ## Frames in order -/

/-- A data command comes first; then a display control, or an address command and a display control (R95). -/
theorem framesInOrder_cons_cons (f g : List Byte) (rest : List (List Byte)) :
    framesInOrder (f :: g :: rest) = true ↔
      isDataFrame f = true ∧
        (isDispFrame g = true ∧ framesInOrder rest = true ∨
          ∃ h rest', rest = h :: rest' ∧
            isAddrFrame g = true ∧ isDispFrame h = true ∧ framesInOrder rest' = true) := by
  cases rest <;> simp [framesInOrder, and_assoc]

theorem framesInOrder_append {fs gs : List (List Byte)} (hf : framesInOrder fs = true) (hg : framesInOrder gs = true) :
    framesInOrder (fs ++ gs) = true := by
  induction fs using framesInOrder.induct with
  | case1 => exact hg
  | case2 => cases hf
  | case3 f g rest ih ihTail =>
    obtain ⟨data, short | long⟩ := (framesInOrder_cons_cons f g rest).mp hf
    · obtain ⟨disp, ordered⟩ := short
      exact (framesInOrder_cons_cons f g _).mpr ⟨data, .inl ⟨disp, ih ordered⟩⟩
    · obtain ⟨h, rest', rfl, addr, disp, ordered⟩ := long
      exact (framesInOrder_cons_cons f g _).mpr ⟨data, .inr ⟨h, rest' ++ gs, rfl, addr, disp, ihTail ordered⟩⟩

theorem framesInOrder_command (b : BitVec 3) : framesInOrder [[Config.cmdData], [dispByte b]] = true :=
  (framesInOrder_cons_cons _ _ _).mpr ⟨rfl, .inl ⟨isDispFrame_dispByte b, rfl⟩⟩

theorem framesInOrder_update {addr : List Byte} (h : isAddrFrame addr = true) (b : BitVec 3) :
    framesInOrder [[Config.cmdData], addr, [dispByte b]] = true :=
  (framesInOrder_cons_cons _ _ _).mpr ⟨rfl, .inr ⟨_, _, rfl, h, isDispFrame_dispByte b, rfl⟩⟩

theorem flatMap_frameT_pair (f g : List Byte) : [f, g].flatMap frameT = frameT f ++ frameT g := by
  rw [List.flatMap_cons, List.flatMap_singleton]

theorem flatMap_frameT_triple (f g h : List Byte) : [f, g, h].flatMap frameT = frameT f ++ frameT g ++ frameT h := by
  rw [List.flatMap_cons, flatMap_frameT_pair, List.append_assoc]

/-! ## What a step adds -/

/-- What goes over the wire from `s` to `t`: nothing, and then the engine does not become initialised; or frames in order,
after two drives of the lines where it is INIT that sends them. -/
inductive AddsInOrder (s t : State) : Prop
  | nothing (trace : t.trace = s.trace) (inited : t.inited = true → s.inited = true)
  | frames (drives : List Event) (f : List Byte) (fs : List (List Byte)) (driven : drives = [] ∨ drives = [c0, d0])
      (ordered : framesInOrder (f :: fs) = true) (trace : t.trace = s.trace ++ (drives ++ (f :: fs).flatMap frameT))

/-- Every operation of the host adds what R95 says of it. -/
theorem exec_addsInOrder {i : Instr} {s t : State} (hi : engineOnly i = false) (h : exec i s = .next t) :
    AddsInOrder s t := by
  have order := framesComeInTheRequiredOrder i s t hi h
  cases i with
  | cmdData | cmdAddr _ | cmdDisp _ | start | stop | writeByte _ | dataCmd | dispCtrl => cases hi
  | init c d v =>
    exact .frames [c0, d0] _ _ (.inr rfl) (framesInOrder_command t.bright) (by rw [flatMap_frameT_pair]; exact order)
  | setBrightness v =>
    exact .frames [] _ _ (.inl rfl) (framesInOrder_command t.bright) (by rw [flatMap_frameT_pair]; exact order)
  | write _ _ | showText _ _ | showHex _ | showNumber _ =>
    obtain ⟨a, data, isAddr, -, trace⟩ := order
    exact .frames [] _ _ (.inl rfl) (framesInOrder_update isAddr t.bright) (by rw [flatMap_frameT_triple]; exact trace)
  | encodeDigit _ | encodeChar _ =>
    cases exec_next h
    exact .nothing rfl id
  | encodeString _ =>
    obtain ⟨segs, -, rfl⟩ := exec_next h
    exact .nothing rfl id

/-- A request that waits where none is cut runs to its end. -/
theorem cut_eq_none {s : State} {who : Issuer} {bytes : List Byte} {cut : Option Nat} {rest : List Input}
    (uncut : s.inputs.all Input.uncut = true) (hs : s.inputs = .request who bytes cut :: rest) : cut = none := by
  cases cut with
  | none => rfl
  | some k => simp [hs, Input.uncut] at uncut

/-- Waiting and a reset of an idle engine add nothing. -/
theorem step_addsInOrder {s t : State} (hosts : s.inputs.all Input.fromHost = true)
    (uncut : s.inputs.all Input.uncut = true) (h : step s = .next t) : AddsInOrder s t := by
  obtain ⟨rfl, -⟩ | ⟨rest, -, rfl⟩ | ⟨who, bytes, cut, rest, i, u, hs, -, hadm, he, rfl⟩ := step_next h
  · exact .nothing rfl id
  · exact .nothing rfl nofun
  · have byHost : engineOnly i = false := by simpa [issuer_eq_host hosts hs] using (admitted_ok hadm).2
    rw [cut_eq_none uncut hs]
    obtain ⟨trace, inited⟩ | ⟨drives, f, fs, driven, ordered, trace⟩ := exec_addsInOrder byHost he
    · exact .nothing trace inited
    · exact .frames drives f fs driven ordered trace

theorem step_uncut {s t : State} (uncut : s.inputs.all Input.uncut = true) (h : step s = .next t) :
    t.inputs.all Input.uncut = true :=
  List.all_eq_true.mpr fun x hx => List.all_eq_true.mp uncut x ((step_inputs_suffix h).subset hx)

/-! ## The wire -/

/-- Where the observer stands outside a frame, it reads the frames that come, with or without INIT's drives before them. -/
theorem seeAll_driven_frames {o : Observer} (outside : o.frame = none) {drives : List Event}
    (driven : drives = [] ∨ drives = [c0, d0]) (f : List Byte) (fs : List (List Byte)) :
    o.seeAll (drives ++ (f :: fs).flatMap frameT) = ⟨some true, some true, none, o.done ++ f :: fs⟩ := by
  obtain rfl | rfl := driven
  · exact seeAll_frames fs outside f
  · rw [seeAll_append, seeAll_drives outside, seeAll_frames fs rfl f]

/-- Settles O56: whatever frames a step adds are read as they were sent, and they are in order after those before them. -/
theorem everyStepKeepsTheWireInOrder : Obligations.EveryStepKeepsTheWireInOrder := by
  intro s t h hstep
  have hosts := step_fromHost h.fromHost hstep
  have uncut := step_uncut h.uncut hstep
  obtain ⟨trace, inited⟩ | ⟨drives, f, fs, driven, ordered, trace⟩ := step_addsInOrder h.fromHost h.uncut hstep
  · exact {
      fromHost := hosts
      uncut := uncut
      closed := trace ▸ h.closed
      high := fun init => trace ▸ h.high (inited init)
      ordered := trace ▸ h.ordered }
  · have seen : Observer.fresh.seeAll t.trace = ⟨some true, some true, none, observe s.trace ++ f :: fs⟩ := by
      rw [trace, seeAll_append, seeAll_driven_frames h.closed driven]
      rfl
    exact {
      fromHost := hosts
      uncut := uncut
      closed := by rw [seen]
      high := fun _ => by rw [seen]; exact ⟨rfl, rfl⟩
      ordered := by rw [observe, seen]; exact framesInOrder_append h.ordered ordered }

/-! ## The chip's slots -/

/-- A position at or below 0 is position 0 (R54). -/
theorem clampPosition_of_nonpos {pos : Int} (h : pos ≤ 0) : clampPosition pos = 0 := by
  have clamped : clamp pos 0 5 = 0 := by
    unfold clamp
    split_ifs <;> omega
  rw [clampPosition, clamped]
  rfl

/-- A frame that opens with no address command leaves the picture of the slots as it was. -/
theorem afterFrame_of_not_address (slots : Slots) {a : Byte} (h : a &&& 0xF8#8 ≠ Config.cmdAddrBase) (data : List Byte) :
    slots.afterFrame (a :: data) = slots := by
  simp only [Slots.afterFrame]
  split
  · rw [if_neg h]
  · rfl

/-- Bytes that fill the slots from the position on are put there. -/
theorem afterFrame_address (slots : Slots) {p : Position} {data : List Byte} (fills : p.val + data.length = 6) :
    slots.afterFrame (addrByte p :: data) = slots.take p.val ++ data.map some := by
  have opens : addrByte p &&& 0xF8#8 = Config.cmdAddrBase := addrByte_base p
  simp only [Slots.afterFrame, addrPos_addrByte]
  rw [if_pos opens, if_pos fills]

theorem dispByte_base (b : BitVec 3) : dispByte b &&& 0xF8#8 ≠ Config.cmdAddrBase := by
  revert b
  decide

/-- What an update of the content whose bytes fill the slots from its position on makes of the picture. -/
theorem slotsAfter_writeT {trace : List Event} (outside : (Observer.fresh.seeAll trace).frame = none) {p : Position}
    {segs : Segs} (fills : p.val + (permuted segs).length = 6) (b : BitVec 3) :
    slotsAfter (trace ++ writeT p segs b) = (slotsAfter trace).take p.val ++ (permuted segs).map some := by
  have sent : writeT p segs b = [[Config.cmdData], addrByte p :: permuted segs, [dispByte b]].flatMap frameT :=
    (flatMap_frameT_triple _ _ _).symm
  have read : observe (trace ++ writeT p segs b) =
      observe trace ++ [[Config.cmdData], addrByte p :: permuted segs, [dispByte b]] := by
    rw [observe, seeAll_append, sent, seeAll_frames _ outside]
    rfl
  rw [slotsAfter, read, List.foldl_append]
  simp only [List.foldl_cons, List.foldl_nil]
  rw [afterFrame_of_not_address _ (dispByte_base b), afterFrame_address _ fills,
    afterFrame_of_not_address _ (by decide), slotsAfter]

/-- Settles O59: the six bytes fill the slots from position 0 on, each group of three reversed. -/
theorem slotsAfterWrite : Obligations.SlotsAfterWrite := by
  intro s t s0 s1 s2 s3 s4 s5 pos h _ hpos hexec
  obtain ⟨-, -, rfl⟩ := exec_next hexec
  have fills : (0 : Position).val + (permuted [s0, s1, s2, s3, s4, s5]).length = 6 := by rw [permuted_six]; rfl
  have slots := slotsAfter_writeT h.closed fills s.bright
  rw [permuted_six] at slots
  rw [clampPosition_of_nonpos hpos]
  exact slots

end Sys2Proof.Machine
end

section
/-! The operations of 43_host_operations.md check by check: what each is refused for, and what it answers once its
checks have passed. -/

namespace Sys2Proof.Machine

/-! ## Operands -/

theorem initBrightness_eq {v : Int} {b : BitVec 3} (h : (b.toNat : Int) = max 0 (min v 7)) : initBrightness v = b :=
  BitVec.eq_of_toNat_eq (Int.ofNat_inj.mp ((initBrightness_toNat v).trans h.symm))

theorem maskBrightness_eq {v : Int} {b : BitVec 3} (h : (b.toNat : Int) = v % 8) : maskBrightness v = b :=
  BitVec.eq_of_toNat_eq (Int.ofNat_inj.mp ((maskBrightness_toNat v).trans h.symm))

/-- WRITE clamps its position to 0 to 5 (30_encoding.md R54). -/
theorem clampPosition_val (v : Int) : ((clampPosition v).val : Int) = max 0 (min v 5) := by
  rw [clampPosition, Fin.val_ofNat, clamp]
  split_ifs <;> omega

/-- The address command's byte, from a position given as a byte. -/
theorem addrByte_clampPosition {pos : Int} {p : Byte} (h : (p.toNat : Int) = max 0 (min pos 5)) :
    addrByte (clampPosition pos) = 0xC0#8 ||| p := by
  have position : (clampPosition pos).val = p.toNat := Int.ofNat_inj.mp ((clampPosition_val pos).trans h.symm)
  rw [addrByte, position, BitVec.ofNat_toNat, BitVec.setWidth_eq]
  rfl

/-! ## INIT and SET_BRIGHTNESS -/

/-- What INIT answers once its checks have passed (R100). -/
theorem exec_init_run {c d : Option LineId} {s : State} (uninit : s.inited = false)
    (different : lineOr Config.clkLine c ≠ lineOr Config.dioLine d)
    (freeClk : lineOr Config.clkLine c ∉ s.foreignLines) (freeDio : lineOr Config.dioLine d ∉ s.foreignLines) (v : Int) :
    exec (.init c d v) s = .next { s.emitted true true (initT (initBrightness v)) with
      inited := true, bright := initBrightness v, clkOut := true, dioOut := true,
      binding := some (lineOr Config.clkLine c, lineOr Config.dioLine d) } := by
  have unshared : ¬(lineOr Config.clkLine c ∈ s.foreignLines ∨ lineOr Config.dioLine d ∈ s.foreignLines) :=
    not_or.mpr ⟨freeClk, freeDio⟩
  rw [exec, execInit, if_neg (by simp [uninit]), if_neg different, if_neg unshared]
  exact running_initRun _ _ _ s

theorem exec_init_of_initialised {s : State} (initialised : s.inited = true) (c d : Option LineId) (v : Int) :
    exec (.init c d v) s = .refused .alreadyInitialised := if_pos initialised

theorem exec_init_of_sameLine {c d : Option LineId} {s : State} (uninit : s.inited = false)
    (same : lineOr Config.clkLine c = lineOr Config.dioLine d) (v : Int) :
    exec (.init c d v) s = .refused .sameLine := by
  rw [exec, execInit, if_neg (by simp [uninit]), if_pos same]

theorem exec_init_of_sharedLine {c d : Option LineId} {s : State} (uninit : s.inited = false)
    (different : lineOr Config.clkLine c ≠ lineOr Config.dioLine d)
    (shared : lineOr Config.clkLine c ∈ s.foreignLines ∨ lineOr Config.dioLine d ∈ s.foreignLines) (v : Int) :
    exec (.init c d v) s = .refused .sharedLine := by
  rw [exec, execInit, if_neg (by simp [uninit]), if_neg different, if_pos shared]

theorem append_initT (trace : List Event) (b : BitVec 3) :
    trace ++ initT b = trace ++ [c0, d0] ++ dataCmdT ++ dispCtrlT b := by
  simp only [initT, List.append_assoc]

/-- Settles O28, check by check, and then `INIT_T` written out. The output enables are entry 24's. -/
theorem initOperation : Obligations.InitOperation := by
  intro s c d v
  refine ⟨fun initialised => exec_init_of_initialised initialised _ _ v, fun uninit same => ?sameLine,
    fun uninit different freeClk freeDio b hb => ?runs, rfl⟩
  case sameLine => exact exec_init_of_sameLine (c := some c) (d := some d) uninit same v
  case runs =>
    rw [exec_init_run (c := some c) (d := some d) uninit different freeClk freeDio, initBrightness_eq hb,
      State.emitted, append_initT]
    rfl

theorem exec_setBrightness_of_uninitialised {s : State} (uninit : s.inited = false) (v : Int) :
    exec (.setBrightness v) s = .refused .notInitialised := if_pos uninit

/-- What SET_BRIGHTNESS answers once its check has passed (R101). -/
theorem exec_setBrightness_run {s : State} (initialised : s.inited = true) (v : Int) :
    exec (.setBrightness v) s = .next { s.emitted true true (setBrightnessT (maskBrightness v)) with
      bright := maskBrightness v, results := s.results ++ [.byte ((maskBrightness v).setWidth 8)] } := by
  rw [exec, execSetBrightness, if_neg (by simp [initialised])]
  exact running_setBrightnessRun _ s

/-- Settles O30: its check, and then its two frames. -/
theorem setBrightnessOperation : Obligations.SetBrightnessOperation := by
  intro s v b hb
  refine ⟨fun uninit => exec_setBrightness_of_uninitialised uninit v, fun initialised => ?_⟩
  rw [exec_setBrightness_run initialised, maskBrightness_eq hb, State.emitted, setBrightnessT, ← List.append_assoc]
  rfl

/-! ## WRITE -/

theorem writeOp_of_uninitialised {s : State} (uninit : s.inited = false) (segs : Segs) (pos : Int) :
    writeOp segs pos s = .refused .notInitialised := if_pos uninit

theorem writeOp_of_badCount {segs : Segs} {s : State} (initialised : s.inited = true)
    (six : segs.length ≠ 6) (three : segs.length ≠ 3) (pos : Int) :
    writeOp segs pos s = .refused .badSegmentCount := by
  rw [writeOp, if_neg (by simp [initialised]), if_pos (by simp [segCountOk, six, three])]

/-- The state after an update of the content: the data command, an address command with its bytes, and the display control
of the brightness; both lines are high, and nothing else changes. -/
def State.updated (s : State) (a : Byte) (data : List Byte) : State :=
  s.emitted true true (frameT [Config.cmdData] ++ frameT (a :: data) ++ frameT [dispByte s.bright])

theorem writeOp_updated {segs : Segs} {s : State} (initialised : s.inited = true) (count : segCountOk segs = true)
    (pos : Int) : writeOp segs pos s = .next (s.updated (addrByte (clampPosition pos)) (permuted segs)) :=
  writeOp_run pos initialised count

/-- Such an update, its frames one after the other. -/
theorem State.updated_eq (s : State) (a : Byte) (data : List Byte) :
    s.updated a data = { s with
      clk := true, dio := true, busy := false, seqPos := none,
      trace := s.trace ++ frameT [0x40#8] ++ frameT (a :: data) ++
        frameT [0x80#8 ||| 0x08#8 ||| s.bright.setWidth 8] } := by
  rw [State.updated, State.emitted, ← List.append_assoc, ← List.append_assoc]
  rfl

/-- Settles O31: its two checks, and the update with six bytes and with three. -/
theorem writeOperation : Obligations.WriteOperation := by
  intro s pos p hp
  refine ⟨fun segs uninit => writeOp_of_uninitialised uninit segs pos,
    fun segs initialised six three => writeOp_of_badCount initialised six three pos,
    fun initialised s0 s1 s2 s3 s4 s5 => ?six, fun initialised s0 s1 s2 => ?three, fun _ => rfl⟩
  case six =>
    have sent := writeOp_updated (segs := [s0, s1, s2, s3, s4, s5]) initialised rfl pos
    rw [addrByte_clampPosition hp, permuted_six, State.updated_eq] at sent
    exact sent
  case three =>
    have sent := writeOp_updated (segs := [s0, s1, s2]) initialised rfl pos
    rw [addrByte_clampPosition hp, permuted_three, State.updated_eq] at sent
    exact sent

/-! ## SHOW, SHOW_HEX, SHOW_NUMBER -/

theorem showOp_of_uninitialised {s : State} (uninit : s.inited = false) (text : Text) :
    showOp text s = .refused .notInitialised := if_pos uninit

/-- ENCODE_STRING's six bytes, by name. -/
theorem encodeString_six {text : Text} (fits : symbols text ≤ 6) :
    ∃ s0 s1 s2 s3 s4 s5, encodeString text = some [s0, s1, s2, s3, s4, s5] := by
  have encoded := encodeString_isSome fits
  match padBlank (encodePass text), encoded, encodeString_length encoded with
  | [s0, s1, s2, s3, s4, s5], encoded, _ => exact ⟨s0, s1, s2, s3, s4, s5, encoded⟩

/-- What is shown of a text that fits: its six bytes, each group of three reversed, from position 0 on (R103). -/
theorem showOp_updated {text : Text} (fits : symbols text ≤ 6) {s : State} (initialised : s.inited = true) :
    ∃ s0 s1 s2 s3 s4 s5, encodeString text = some [s0, s1, s2, s3, s4, s5] ∧
      showOp text s = .next { s with
        clk := true, dio := true, busy := false, seqPos := none,
        trace := s.trace ++ frameT [0x40#8] ++ frameT [0xC0#8, s2, s1, s0, s5, s4, s3] ++
          frameT [0x80#8 ||| 0x08#8 ||| s.bright.setWidth 8] } := by
  obtain ⟨s0, s1, s2, s3, s4, s5, encoded⟩ := encodeString_six fits
  refine ⟨s0, s1, s2, s3, s4, s5, encoded, ?_⟩
  rw [← State.updated_eq, ← permuted_six, showOp_eq_writeOp encoded]
  exact writeOp_updated initialised rfl 0

/-- Settles O32: the two checks, and what is shown of a text that fits. -/
theorem showOperation : Obligations.ShowOperation := fun _ text _ =>
  ⟨fun uninit => showOp_of_uninitialised uninit text, fun initialised long => showOp_of_long long initialised,
    fun initialised fits => showOp_updated fits initialised, rfl⟩

theorem hexFmt_length (x : BitVec 16) : (hexFmt x).length = 6 := by
  rw [hexFmt, List.length_map, List.length_finRange]

theorem dot_notMem_hexFmt (x : BitVec 16) : dot ∉ hexFmt x := by
  intro h
  obtain ⟨k, -, hk⟩ := List.mem_map.mp h
  exact codeNotDot_ne _ hk

/-- Settles O33: the text of `HEX_FMT` always fits. -/
theorem showHexOperation : Obligations.ShowHexOperation := by
  intro s v x hx
  refine ⟨fun uninit => showOp_of_uninitialised uninit _, hexFmt_length x, dot_notMem_hexFmt x, fun initialised => ?_⟩
  rw [exec, execShowHex, hexValue_eq hx]
  exact showOp_updated (hexFmt_symbols x).le initialised

/-- Settles O34: SHOW's two checks on the text `DEC_FMT` gives, and what is shown of one that fits. -/
theorem showNumberOperation : Obligations.ShowNumberOperation := fun _ _ =>
  ⟨fun uninit => showOp_of_uninitialised uninit _, fun initialised long => showOp_of_long long initialised,
    fun initialised fits => showOp_updated fits initialised⟩

end Sys2Proof.Machine
end

section
/-! An operation goes on or is refused as the table says, and a step runs the operation that a request decodes to
(43_host_operations.md R106, R107; 60_exceptions.md R122). -/

namespace Sys2Proof.Machine

/-- Settles O5: a request whose issuer may issue its operation is admitted, and without a reset inside it runs to its
end. -/
theorem stepRunsTheDecodedOperation : Obligations.StepRunsTheDecodedOperation :=
  fun _ _ _ _ _ _ idle waits decodes issuable => step_of_decode idle waits decodes issuable

/-- What `exec` answers, by the table's entry: it runs where there is none and where only the host is refused (entry 16),
and refuses for any other. -/
inductive AnswersTable : Option Refusal → Outcome → Prop
  | runs (t : State) : AnswersTable none (.next t)
  | engineRuns (t : State) : AnswersTable (some .notHostIssuable) (.next t)
  | refuses (r : Refusal) (other : r ≠ .notHostIssuable) : AnswersTable (some r) (.refused r)

theorem writeOp_answersTable (segs : Segs) (pos : Int) (s : State) :
    AnswersTable (refusalByTable (.write segs pos) s) (writeOp segs pos s) := by
  rw [refusalByTable]
  split_ifs with uninit count
  · rw [writeOp_of_uninitialised uninit]
    exact .refuses _ nofun
  · rw [writeOp_updated (by simpa using uninit) (by simpa [segCountOk] using count)]
    exact .runs _
  · obtain ⟨six, three⟩ := not_or.mp count
    rw [writeOp_of_badCount (by simpa using uninit) six three]
    exact .refuses _ nofun

theorem showOp_answersTable (text : Text) (s : State) :
    AnswersTable (refusalByTable.refusalOfText s text) (showOp text s) := by
  rw [refusalByTable.refusalOfText]
  split_ifs with uninit long
  · rw [showOp_of_uninitialised uninit]
    exact .refuses _ nofun
  · rw [showOp_of_long long (by simpa using uninit)]
    exact .refuses _ nofun
  · obtain ⟨_, _, _, _, _, _, -, shown⟩ := showOp_updated (Nat.not_lt.mp long) (s := s) (by simpa using uninit)
    rw [shown]
    exact .runs _

theorem exec_init_answersTable (c d : Option LineId) (v : Int) (s : State) :
    AnswersTable (refusalByTable (.init c d v) s) (exec (.init c d v) s) := by
  rw [refusalByTable]
  split_ifs with initialised same shared
  · rw [exec_init_of_initialised initialised]
    exact .refuses _ nofun
  · rw [exec_init_of_sameLine (by simpa using initialised) same]
    exact .refuses _ nofun
  · rw [exec_init_of_sharedLine (by simpa using initialised) same shared]
    exact .refuses _ nofun
  · obtain ⟨freeClk, freeDio⟩ := not_or.mp shared
    rw [exec_init_run (by simpa using initialised) same freeClk freeDio]
    exact .runs _

/-- Every operation answers as the table says (60_exceptions.md R122, R125). -/
theorem exec_answersTable (i : Instr) (s : State) : AnswersTable (refusalByTable i s) (exec i s) := by
  cases i with
  | cmdData | cmdAddr _ | cmdDisp _ | start | stop | writeByte _ | dataCmd | dispCtrl => exact .engineRuns _
  | init c d v => exact exec_init_answersTable c d v s
  | setBrightness v =>
    rw [refusalByTable]
    split_ifs with uninit
    · rw [exec_setBrightness_of_uninitialised uninit]
      exact .refuses _ nofun
    · rw [exec_setBrightness_run (by simpa using uninit)]
      exact .runs _
  | write segs pos => exact writeOp_answersTable segs pos s
  | showText text _ => exact showOp_answersTable text s
  | showHex v => exact showOp_answersTable _ s
  | showNumber v => exact showOp_answersTable _ s
  | encodeDigit _ | encodeChar _ => exact .runs _
  | encodeString text =>
    rw [refusalByTable]
    split_ifs with long
    · rw [exec_encodeString_of_long long]
      exact .refuses _ nofun
    · rw [exec_encodeString (encodeString_isSome (Nat.not_lt.mp long))]
      exact .runs _

/-- Settles O10: the three answers by the table are the three cases of the statement. -/
theorem nothingFailsAfterTheChecks : Obligations.NothingFailsAfterTheChecks := by
  intro i s
  generalize refusalByTable i s = entry, exec i s = answer, exec_answersTable i s = answers
  cases answers with
  | runs t => exact ⟨t, rfl⟩
  | engineRuns t => exact ⟨t, rfl⟩
  | refuses r other =>
    split
    case h_1 no => cases no
    case h_2 host => exact absurd (Option.some.inj host) other
    case h_3 same => rw [Option.some.inj same]

end Sys2Proof.Machine
end

section
/-! What an operation emits and returns is a function of its operands, of `BRIGHT` and of `DEC_FMT`
(43_host_operations.md R108). -/

namespace Sys2Proof.Machine

/-- What an operation that completes adds to the trace and to the returned values, and the brightness it leaves. -/
structure Effect where
  events : List Event
  returned : List Result
  bright : BitVec 3

/-- The effect of showing a text at brightness `b`. Only a text that fits is shown, so there are always six bytes. -/
def shownEffect (b : BitVec 3) (text : Text) : Effect := ⟨writeT 0 ((encodeString text).getD []) b, [], b⟩

/-- The effect of each operation that completes, at brightness `b` and with the texts that `DEC_FMT` lists. -/
def effectOf (b : BitVec 3) (fixed : List (Int × Text)) : Instr → Effect
  | .cmdData => ⟨byteT Config.cmdData, [], b⟩
  | .cmdAddr p => ⟨byteT (addrByte p), [], b⟩
  | .cmdDisp c => ⟨byteT (dispByte c), [], b⟩
  | .init _ _ v => ⟨initT (initBrightness v), [], initBrightness v⟩
  | .setBrightness v =>
    ⟨setBrightnessT (maskBrightness v), [.byte ((maskBrightness v).setWidth 8)], maskBrightness v⟩
  | .write segs pos => ⟨writeT (clampPosition pos) segs b, [], b⟩
  | .showText text _ => shownEffect b text
  | .showHex v => shownEffect b (hexFmt (hexValue v))
  | .showNumber v => shownEffect b (decFmt fixed v)
  | .encodeDigit v => ⟨[], [.byte (encodeDigit v)], b⟩
  | .encodeChar ch => ⟨[], [.byte (encodeChar ch)], b⟩
  | .encodeString text => ⟨[], [.seq ((encodeString text).getD [])], b⟩
  | .start => ⟨startT, [], b⟩
  | .stop => ⟨stopT, [], b⟩
  | .writeByte v => ⟨byteT v, [], b⟩
  | .dataCmd => ⟨dataCmdT, [], b⟩
  | .dispCtrl => ⟨dispCtrlT b, [], b⟩

/-- The events, the returned values and the brightness are all that `Effect` says of `t` after `s`. -/
structure Effect.From (e : Effect) (s t : State) : Prop where
  trace : t.trace = s.trace ++ e.events
  results : t.results = s.results ++ e.returned
  bright : t.bright = e.bright

/-- An operation that goes on has its effect. -/
theorem exec_effectOf {i : Instr} {s t : State} (h : exec i s = .next t) :
    (effectOf s.bright s.decTexts i).From s t := by
  have noValue := (List.append_nil s.results).symm
  have noEvent := (List.append_nil s.trace).symm
  cases i with
  | cmdData | cmdAddr _ | cmdDisp _ | start | stop | writeByte _ | dataCmd | dispCtrl =>
    cases exec_next h
    exact ⟨rfl, noValue, rfl⟩
  | init c d v =>
    obtain ⟨-, -, -, -, rfl⟩ := exec_next h
    exact ⟨rfl, noValue, rfl⟩
  | setBrightness v =>
    obtain ⟨-, rfl⟩ := exec_next h
    exact ⟨rfl, rfl, rfl⟩
  | write segs pos =>
    obtain ⟨-, -, rfl⟩ := exec_next h
    exact ⟨rfl, noValue, rfl⟩
  | showText _ _ | showHex _ | showNumber _ =>
    obtain ⟨-, segs, encoded, -, rfl⟩ := exec_next h
    exact ⟨by rw [effectOf, shownEffect, encoded]; rfl, noValue, rfl⟩
  | encodeDigit _ | encodeChar _ =>
    cases exec_next h
    exact ⟨noEvent, rfl, rfl⟩
  | encodeString text =>
    obtain ⟨segs, encoded, rfl⟩ := exec_next h
    exact ⟨noEvent, by rw [effectOf, encoded]; rfl, rfl⟩

theorem frameT_ne_nil (bs : List Byte) : frameT bs ≠ [] := List.ne_nil_of_length_pos (by rw [frameT_length]; omega)

theorem writeT_ne_nil (p : Position) (segs : Segs) (b : BitVec 3) : writeT p segs b ≠ [] :=
  List.append_ne_nil_of_right_ne_nil _ (frameT_ne_nil _)

/-- A SHOW_NUMBER that goes on goes on again: it keeps `INITED` and `DEC_FMT` (R105). -/
theorem exec_showNumber_again {v : Int} {s t : State} (h : exec (.showNumber v) s = .next t) :
    ∃ u, exec (.showNumber v) t = .next u := by
  obtain ⟨initialised, segs, encoded, count, rfl⟩ := exec_next h
  exact ⟨_, (showOp_eq_writeOp encoded _).trans (writeOp_run 0 initialised count)⟩

/-- Settles O47: both runs have the effect that the operands, `BRIGHT` and `DEC_FMT` give, and so have two SHOW_NUMBERs in
a row, since the first leaves `BRIGHT` and `DEC_FMT`. -/
theorem tracesDependOnOperandsAndBright : Obligations.TracesDependOnOperandsAndBright := by
  constructor
  case left =>
    intro i s t s' t' bright texts h h'
    have effect := exec_effectOf h
    have effect' := exec_effectOf h'
    rw [← bright, ← texts] at effect'
    exact ⟨_, _, effect.trace, effect'.trace, effect.results, effect'.results, effect.bright.trans effect'.bright.symm⟩
  case right =>
    intro s t h
    obtain ⟨u, again⟩ := exec_showNumber_again h
    have first := exec_effectOf h
    have second := exec_effectOf again
    obtain ⟨-, -, -, texts, -⟩ := whatOperationsLeaveAlone _ _ _ h
    rw [texts, show t.bright = s.bright from first.bright] at second
    exact ⟨u, _, again, first.trace, second.trace, writeT_ne_nil _ _ _⟩

end Sys2Proof.Machine
end

section
/-! The reference formatters (92_eei_decisions.md D14, D15), which no operation uses. -/

namespace Sys2Proof.Machine

theorem digits_length_le_fuel (base : Nat) : ∀ fuel n : Nat, (digits base fuel n).length ≤ fuel
  | 0, _ => Nat.le_refl 0
  | fuel + 1, n => by
    rw [digits]
    split
    · exact Nat.le_add_left 1 fuel
    · rw [List.length_append, List.length_singleton]
      exact Nat.succ_le_succ (digits_length_le_fuel base fuel _)

theorem padLeft_length (t : Text) : (padLeft t).length = max 6 t.length := by
  rw [padLeft, List.length_append, List.length_replicate]
  omega

theorem dot_notMem_padLeft {t : Text} (h : dot ∉ t) : dot ∉ padLeft t := by
  rw [padLeft, List.mem_append, List.mem_replicate]
  rintro (⟨-, space⟩ | later)
  · exact absurd space (by decide)
  · exact h later

/-- No digit's character is the `.`, up to base 16. -/
theorem dot_notMem_digits {base : Nat} (pos : 0 < base) (small : base ≤ 16) (fuel n : Nat) :
    dot ∉ (digits base fuel n).map digitCode := by
  intro h
  obtain ⟨d, hd, isDot⟩ := List.mem_map.mp h
  exact digitCode_ne_dot d ((digits_lt pos fuel n d hd).trans_le small) isDot

theorem symbols_of_dot_notMem {t : Text} (h : dot ∉ t) : symbols t = t.length := by
  rw [symbols, List.filter_eq_self.mpr]
  intro c hc
  exact bne_iff_ne.mpr fun isDot => h (isDot ▸ hc)

/-- The sign in front of a decimal text. -/
def decSign (v : Int) : Text := if v < 0 then [0x2D#8] else []

/-- A decimal text before it is padded: the sign, then the digits. -/
def decBody (v : Int) : Text := decSign v ++ (digits 10 (v.natAbs + 1) v.natAbs).map digitCode

theorem decFmtRef_eq (v : Int) : decFmtRef v = padLeft (decBody v) := rfl

theorem dot_notMem_decFmtRef (v : Int) : dot ∉ decFmtRef v := by
  refine dot_notMem_padLeft (t := decBody v) fun h => ?_
  obtain sign | digit := List.mem_append.mp h
  · rw [decSign] at sign
    split at sign
    · exact absurd sign (by decide)
    · cases sign
  · exact dot_notMem_digits (by decide) (by decide) _ _ digit

/-- Six characters are enough for six digits, or for a sign and five. -/
theorem decBody_length_le_six (v : Int) : (decBody v).length ≤ 6 ↔ -99999 ≤ v ∧ v ≤ 999999 := by
  have five := digits_length_le (base := 10) (by decide) (v.natAbs + 1) v.natAbs 4 (Nat.lt_succ_self _)
  have six := digits_length_le (base := 10) (by decide) (v.natAbs + 1) v.natAbs 5 (Nat.lt_succ_self _)
  rw [decBody, decSign, List.length_append, List.length_map]
  split
  · rw [List.length_singleton]
    omega
  · rw [List.length_nil]
    omega

/-- Settles O42: four hexadecimal digits are padded to six characters; a decimal text is padded to at least six, and it has
no `.`, so that its length says whether it can be shown. -/
theorem referenceFormattersMeetTheConstraints : Obligations.ReferenceFormattersMeetTheConstraints := by
  refine ⟨fun x => ⟨?hexLength, dot_notMem_padLeft (dot_notMem_digits (by decide) (by decide) _ _)⟩,
    fun v => ⟨?decLength, dot_notMem_decFmtRef v⟩, fun v => ?shown⟩
  case hexLength =>
    have four := digits_length_le_fuel 16 4 x.toNat
    rw [hexFmtRef, padLeft_length, List.length_map]
    omega
  case decLength =>
    rw [decFmtRef_eq, padLeft_length]
    exact Nat.le_max_left 6 _
  case shown =>
    rw [symbols_of_dot_notMem (dot_notMem_decFmtRef v), decFmtRef_eq, padLeft_length, ← decBody_length_le_six]
    omega

end Sys2Proof.Machine
end

section
/-! Engines side by side (60_exceptions.md R122 order 6, R131; 70_reset_and_hazards.md R152): a step keeps an engine's lines
different from each other and from the lines it is told of, so a rig that shares no line shares none after a step. -/

namespace Sys2Proof.Machine

/-- The lines an engine owns are different, and it is told of none of them as another engine's. -/
structure State.Apart (s : State) : Prop where
  different : s.ownLines.Nodup
  unshared : s.ownLines.Disjoint s.foreignLines

theorem State.Apart.of_unbound {s : State} (unbound : s.binding = none) : s.Apart := by
  have unowned : s.ownLines = [] := by rw [State.ownLines, unbound]
  exact ⟨unowned ▸ List.nodup_nil, unowned ▸ List.disjoint_nil_left _⟩

theorem State.cutShort_apart (k : Nat) (whole : List Event) (s : State) : (s.cutShort k whole).Apart := .of_unbound rfl

/-- Only the binding and the other engines' lines count. -/
theorem State.Apart.congr {s t : State} (h : s.Apart) (binding : t.binding = s.binding)
    (foreign : t.foreignLines = s.foreignLines) : t.Apart := by
  have own : t.ownLines = s.ownLines := by rw [State.ownLines, State.ownLines, binding]
  exact ⟨own ▸ h.different, own ▸ foreign ▸ h.unshared⟩

/-- INIT's checks 5 and 6 are what binding two lines needs. -/
theorem State.bindLines_apart {s : State} {c d : LineId} (different : c ≠ d) (freeClk : c ∉ s.foreignLines)
    (freeDio : d ∉ s.foreignLines) : (s.bindLines c d).Apart :=
  ⟨List.nodup_cons.mpr ⟨mt List.mem_singleton.mp different, List.nodup_singleton d⟩,
    List.disjoint_cons_left.mpr ⟨freeClk, List.singleton_disjoint.mpr freeDio⟩⟩

theorem State.Apart.exec {i : Instr} {s t : State} (h : s.Apart) (he : Machine.exec i s = .next t) : t.Apart := by
  cases exec_answers he with
  | sends | setsBrightness | returns => exact h.congr rfl rfl
  | inits c d v cl dl es different freeClk freeDio =>
    have bound : ((s.emitted true true es).bindLines cl dl).Apart := State.bindLines_apart different freeClk freeDio
    exact bound.congr rfl rfl

/-- Every step keeps an engine's lines apart, whoever issued the operation; a reset leaves it none. -/
theorem State.Apart.step {s t : State} (h : s.Apart) (hstep : Machine.step s = .next t) : t.Apart := by
  obtain ⟨rfl, -⟩ | ⟨rest, -, rfl⟩ | ⟨_, _, cut, rest, i, u, -, -, -, he, rfl⟩ := step_next hstep
  · exact h
  · exact .of_unbound rfl
  · have taken : ({ s with inputs := rest } : State).Apart := h.congr rfl rfl
    cases cut with
    | none => exact taken.exec he
    | some k => exact State.cutShort_apart k _ _

theorem step_foreignLines {s t : State} (h : step s = .next t) : t.foreignLines = s.foreignLines := by
  obtain ⟨rfl, -⟩ | ⟨rest, -, rfl⟩ | ⟨_, _, cut, rest, i, u, -, -, -, he, rfl⟩ := step_next h
  · rfl
  · rfl
  · cases cut with
    | none => cases exec_answers he <;> rfl
    | some k => simp [settled, State.cutShort]

/-- A rig shares no line exactly when one of its engines, told of the others' lines, has its own apart, and the others
share none. -/
theorem Rig.exclusive_iff {rig : Rig} {k : Nat} {s : State} (hk : rig[k]? = some s) :
    rig.Exclusive ↔ ({ s with foreignLines := rig.othersLines k } : State).Apart ∧ (rig.othersLines k).Nodup := by
  obtain ⟨hlt, rfl⟩ := List.getElem?_eq_some_iff.mp hk
  have first := (List.getElem_cons_eraseIdx_perm hlt).flatMap_right State.ownLines
  rw [Rig.Exclusive, ← first.nodup_iff, List.flatMap_cons, List.nodup_append']
  constructor
  · rintro ⟨different, others, unshared⟩
    exact ⟨⟨different, unshared⟩, others⟩
  · rintro ⟨⟨different, unshared⟩, others⟩
    exact ⟨different, others, unshared⟩

theorem Rig.othersLines_set (rig : Rig) (k : Nat) (t : State) : Rig.othersLines (rig.set k t) k = rig.othersLines k := by
  rw [Rig.othersLines, List.eraseIdx_set_eq, Rig.othersLines]

/-- A rig's step is a step of one engine that was told of the others' lines. -/
theorem Rig.stepAt_some {rig rig' : Rig} {k : Nat} (h : rig.stepAt k = some rig') :
    ∃ s t, rig[k]? = some s ∧ step { s with foreignLines := rig.othersLines k } = .next t ∧ rig' = rig.set k t := by
  unfold Rig.stepAt at h
  split at h
  · cases h
  · next s hs =>
    split at h
    · next t ht =>
      cases h
      exact ⟨s, t, hs, ht, rfl⟩
    · cases h
    · cases h

/-- Settles O60: the engine that steps keeps its lines apart from the others', which do not move. -/
theorem enginesNeverShareALine : Obligations.EnginesNeverShareALine := by
  intro rig rig' k exclusive stepped
  obtain ⟨s, t, hs, ht, rfl⟩ := Rig.stepAt_some stepped
  obtain ⟨apart, others⟩ := (Rig.exclusive_iff hs).mp exclusive
  have now : (rig.set k t)[k]? = some t := List.getElem?_set_self (List.getElem?_eq_some_iff.mp hs).1
  rw [Rig.exclusive_iff now, Rig.othersLines_set]
  exact ⟨(apart.step ht).congr rfl (step_foreignLines ht).symm, others⟩

end Sys2Proof.Machine
end

section
/-! What a step refuses (60_exceptions.md R120, R122, R125; entries 26 and 29). -/

namespace Sys2Proof.Machine

/-! ## Steps that refuse nothing -/

theorem step_of_no_input {s : State} (empty : s.inputs = []) : step s = .next s := by
  rw [step, takeInput, empty]

theorem step_of_reset {s : State} {rest : List Input} (waits : s.inputs = .reset :: rest) :
    step s = .next ({ s with inputs := rest } : State).resetInput := by
  rw [step, takeInput, waits]

theorem step_of_busy {s : State} {who : Issuer} {bytes : List Byte} {cut : Option Nat} {rest : List Input}
    (busy : s.busy = true) (waits : s.inputs = .request who bytes cut :: rest) : step s = .next s := by
  unfold step takeInput
  rw [waits]
  exact if_pos busy

/-! ## Requests that are not admitted -/

theorem step_of_not_admitted {s : State} {who : Issuer} {bytes : List Byte} {cut : Option Nat} {rest : List Input}
    {r : Refusal} (idle : s.busy = false) (waits : s.inputs = .request who bytes cut :: rest)
    (refused : admitted who bytes = .error r) : step s = .refused r := by
  unfold step takeInput
  rw [waits]
  simp only [idle, Bool.false_eq_true, if_false, runRequest, refused]

theorem admitted_of_decode_error {bytes : List Byte} {e : DecodeError} (h : decode bytes = .error e) (who : Issuer) :
    admitted who bytes = .error (refusalOf e) := by
  rw [admitted, h]

/-- Bytes that are no operation are refused before any other check, whoever asks. -/
theorem step_of_decode_error {s : State} {who : Issuer} {bytes : List Byte} {cut : Option Nat} {rest : List Input}
    {e : DecodeError} (idle : s.busy = false) (waits : s.inputs = .request who bytes cut :: rest)
    (h : decode bytes = .error e) : step s = .refused (refusalOf e) :=
  step_of_not_admitted idle waits (admitted_of_decode_error h who)

theorem admitted_of_engineOnly {bytes junk : List Byte} {i : Instr} (hd : decode bytes = .ok (i, junk))
    (only : engineOnly i = true) : admitted .host bytes = .error .notHostIssuable := by
  simp only [admitted, hd, only, and_self, if_true]

/-- What a request that is not admitted is refused for: its bytes, or that the host may not issue it. -/
theorem admitted_error {who : Issuer} {bytes : List Byte} {r : Refusal} (h : admitted who bytes = .error r) :
    (∃ e, r = refusalOf e) ∨ r = .notHostIssuable := by
  unfold admitted at h
  split at h
  · next e _ =>
    cases h
    exact .inl ⟨e, rfl⟩
  · split at h
    · cases h
      exact .inr rfl
    · cases h

theorem decode_reserved {b : Byte} (h : b = 0x0E#8 ∨ b = 0x0F#8) (bytes : List Byte) :
    decode (b :: bytes) = .error .reservedOp := by
  obtain rfl | rfl := h <;> rfl

/-- Settles O9: the decoder's two errors, on the three requests that end too early and on the first bytes that are never
sent. -/
theorem requestsThatAreNoOperation : Obligations.RequestsThatAreNoOperation := by
  refine ⟨fun s who bytes cut rest idle waits => ⟨step_of_decode_error idle waits, step_of_decode_error idle waits⟩,
    fun s bytes cut rest idle waits short => step_of_decode_error (e := .truncated) idle waits ?short,
    fun s b bytes cut rest idle waits notSent notCode notCounted =>
      step_of_decode_error idle waits (neverSentBytesDecodeToNothing b bytes notSent notCode notCounted)⟩
  case short => obtain rfl | rfl | rfl := short <;> rfl

/-! ## Requests that are admitted -/

/-- A reset inside an operation changes what state it goes on to, and not whether it is refused. -/
theorem runAdmitted_answersTable (i : Instr) (cut : Option Nat) (s : State) :
    AnswersTable (refusalByTable i s) (runAdmitted i cut s) := by
  rw [runAdmitted]
  generalize refusalByTable i s = entry, exec i s = answer, exec_answersTable i s = answers
  cases answers with
  | runs => exact .runs _
  | engineRuns => exact .engineRuns _
  | refuses r other => exact .refuses r other

/-- The table does not read what else waits on the port. -/
theorem refusalByTable_inputs (i : Instr) (s : State) (rest : List Input) :
    refusalByTable i { s with inputs := rest } = refusalByTable i s := rfl

/-- A step that takes an admitted request answers as the table says. -/
theorem step_answersTable {s : State} {who : Issuer} {bytes : List Byte} {cut : Option Nat} {rest : List Input}
    {i : Instr} (idle : s.busy = false) (waits : s.inputs = .request who bytes cut :: rest)
    (admits : admitted who bytes = .ok i) : AnswersTable (refusalByTable i s) (step s) := by
  rw [step_request idle waits admits, ← refusalByTable_inputs i s rest]
  exact runAdmitted_answersTable i cut _

theorem refusalByTable_of_engineOnly {i : Instr} (only : engineOnly i = true) (s : State) :
    refusalByTable i s = some .notHostIssuable := by
  cases i with
  | cmdData | cmdAddr | cmdDisp | start | stop | writeByte | dataCmd | dispCtrl => rfl
  | init | setBrightness | write | showText | showHex | showNumber | encodeDigit | encodeChar | encodeString => cases only

/-- The reasons of R122's orders 3 to 8, which are read from the operands and the state. -/
def checkReasons : List Refusal :=
  [.notInitialised, .alreadyInitialised, .sameLine, .sharedLine, .badSegmentCount, .textTooLong]

theorem mem_checkReasons_of_text {s : State} {text : Text} {r : Refusal}
    (h : refusalByTable.refusalOfText s text = some r) : r ∈ checkReasons := by
  rw [refusalByTable.refusalOfText] at h
  split_ifs at h <;> cases h <;> decide

/-- What the host may issue is refused for a reason of orders 3 to 8 only. -/
theorem mem_checkReasons {i : Instr} {s : State} {r : Refusal} (byHost : engineOnly i = false)
    (h : refusalByTable i s = some r) : r ∈ checkReasons := by
  cases i with
  | cmdData | cmdAddr | cmdDisp | start | stop | writeByte | dataCmd | dispCtrl => cases byHost
  | encodeDigit | encodeChar => cases h
  | showText | showHex | showNumber => exact mem_checkReasons_of_text h
  | init | setBrightness | write | encodeString =>
    rw [refusalByTable] at h
    split_ifs at h <;> cases h <;> decide

/-- Settles O8: a reserved code does not decode; a well-formed operation decodes to itself, and what the host may not issue
is not admitted, while the rest answers as the table says. -/
theorem refusalsFollowTheTable : Obligations.RefusalsFollowTheTable := by
  refine ⟨fun s b bytes cut rest idle waits reserved => step_of_decode_error idle waits (decode_reserved reserved bytes),
    fun s i junk cut rest idle waits wf => ?operation⟩
  have decodes := decode_encode wf junk
  cases only : engineOnly i with
  | true =>
    rw [refusalByTable_of_engineOnly only]
    exact step_of_not_admitted idle waits (admitted_of_engineOnly decodes only)
  | false =>
    have answers := step_answersTable idle waits (admitted_of_decode decodes fun _ => only)
    have reasons := fun r => mem_checkReasons (r := r) (s := s) only
    generalize refusalByTable i s = entry, step s = answer at answers reasons
    cases answers with
    | runs t => exact ⟨t, rfl⟩
    | engineRuns => exact absurd (reasons _ rfl) (by decide)
    | refuses r => rfl

/-- Every reason a step can have: the eight of R122 and the model's own two (entry 29). -/
def stepReasons : List Refusal :=
  [.reservedOp, .notHostIssuable, .notInitialised, .alreadyInitialised, .sameLine, .sharedLine, .badSegmentCount,
    .textTooLong, .noSuchOperation, .truncatedRequest]

theorem mem_stepReasons_of_not_admitted {who : Issuer} {bytes : List Byte} {r : Refusal}
    (h : admitted who bytes = .error r) : r ∈ stepReasons := by
  obtain ⟨e, rfl⟩ | rfl := admitted_error h
  · cases e <;> decide
  · decide

theorem mem_stepReasons_of_table {i : Instr} {s : State} {r : Refusal} (h : refusalByTable i s = some r) :
    r ∈ stepReasons := by
  have subset : checkReasons ⊆ stepReasons := by decide
  cases only : engineOnly i with
  | true =>
    rw [refusalByTable_of_engineOnly only] at h
    cases h
    decide
  | false => exact subset (mem_checkReasons only h)

/-- An idle engine takes a request and goes on, or refuses it for a listed reason. -/
theorem step_of_idle_request {s : State} {who : Issuer} {bytes : List Byte} {cut : Option Nat} {rest : List Input}
    (idle : s.busy = false) (waits : s.inputs = .request who bytes cut :: rest) :
    (∃ t, step s = .next t) ∨ ∃ r, step s = .refused r ∧ r ∈ stepReasons := by
  cases admits : admitted who bytes with
  | error r => exact .inr ⟨r, step_of_not_admitted idle waits admits, mem_stepReasons_of_not_admitted admits⟩
  | ok i =>
    have answers := step_answersTable idle waits admits
    have reasons := fun r => mem_stepReasons_of_table (i := i) (s := s) (r := r)
    generalize refusalByTable i s = entry, step s = answer at answers reasons
    cases answers with
    | runs t | engineRuns t => exact .inl ⟨t, rfl⟩
    | refuses r => exact .inr ⟨r, rfl, reasons r rfl⟩

/-- Settles O11, by what is presented first: only a request at an idle engine can be refused. -/
theorem everyStepGoesOnOrRefusesARequest : Obligations.EveryStepGoesOnOrRefusesARequest := by
  intro s
  match waits : s.inputs, busy : s.busy with
  | [], _ => exact .inl ⟨s, step_of_no_input waits⟩
  | .reset :: rest, _ => exact .inl ⟨_, step_of_reset waits⟩
  | .request who bytes cut :: rest, true => exact .inl ⟨s, step_of_busy busy waits⟩
  | .request who bytes cut :: rest, false =>
    obtain goes | ⟨r, refused, listed⟩ := step_of_idle_request busy waits
    · exact .inl goes
    · exact .inr ⟨r, refused, rfl, ⟨who, bytes, cut, rest, rfl⟩, listed⟩

end Sys2Proof.Machine
end

section
/-! INIT's line checks (60_exceptions.md R122 orders 5 and 6; entry 3). -/

namespace Sys2Proof.Machine

/-- Settles O29: a line left out is read as the engine's own output, and the checks then see two lines. -/
theorem initLineChecks : Obligations.InitLineChecks := by
  refine ⟨fun s c d v => ⟨rfl, rfl, rfl⟩, fun s c d v uninit different shared => ?shared,
    fun s c d v uninit => ⟨fun same => ?clkSame, fun different shared => ?clkShared,
      fun same => ?dioSame, fun different shared => ?dioShared⟩⟩
  case shared => exact exec_init_of_sharedLine (c := some c) (d := some d) uninit different shared v
  case clkSame => exact exec_init_of_sameLine (c := none) (d := some d) uninit same.symm v
  case clkShared => exact exec_init_of_sharedLine (c := none) (d := some d) uninit different.symm (.inl shared) v
  case dioSame => exact exec_init_of_sameLine (c := some c) (d := none) uninit same v
  case dioShared => exact exec_init_of_sharedLine (c := some c) (d := none) uninit different (.inr shared) v

end Sys2Proof.Machine
end

section
/-! How many events there are, and the least time they take (70_reset_and_hazards.md R150). -/

namespace Sys2Proof.Machine

/-- The events of a sequence, the sets and the waits among them, and its least time, 10 microseconds for each wait. -/
def Counts (es : List Event) (events sets waits : Nat) : Prop :=
  es.length = events ∧ countSets es = sets ∧ countWaits es = waits ∧ minTime es = 10 * waits

theorem countWaits_append (as bs : List Event) : countWaits (as ++ bs) = countWaits as + countWaits bs := by
  simp only [countWaits, List.filter_append, List.length_append]

theorem minTime_append (as bs : List Event) : minTime (as ++ bs) = minTime as + minTime bs := by
  simp only [minTime, List.map_append, List.sum_append]

theorem Counts.nil : Counts [] 0 0 0 := ⟨rfl, rfl, rfl, rfl⟩

theorem Counts.append {as bs : List Event} {n sets waits m sets' waits' : Nat} (ha : Counts as n sets waits)
    (hb : Counts bs m sets' waits') : Counts (as ++ bs) (n + m) (sets + sets') (waits + waits') := by
  obtain ⟨length, set, wait, time⟩ := ha
  obtain ⟨length', set', wait', time'⟩ := hb
  exact ⟨by rw [List.length_append, length, length'], by rw [countSets_append, set, set'],
    by rw [countWaits_append, wait, wait'], by rw [minTime_append, time, time', Nat.mul_add]⟩

/-- Parts that all count the same. -/
theorem Counts.flatMap {α : Type} {part : α → List Event} {n sets waits : Nat}
    (h : ∀ x, Counts (part x) n sets waits) (xs : List α) :
    Counts (xs.flatMap part) (n * xs.length) (sets * xs.length) (waits * xs.length) := by
  induction xs with
  | nil => exact .nil
  | cons x xs ih =>
    have parts := (h x).append ih
    simpa only [List.flatMap_cons, List.length_cons, Nat.mul_succ, Nat.add_comm] using parts

/-! ## The sequences -/

theorem counts_startT : Counts startT 8 4 4 := ⟨rfl, rfl, rfl, rfl⟩

theorem counts_stopT : Counts stopT 7 4 3 := ⟨rfl, rfl, rfl, rfl⟩

theorem counts_bitT (b : Level) : Counts (bitT b) 6 3 3 := ⟨rfl, rfl, rfl, rfl⟩

theorem counts_ackT : Counts ackT 6 3 3 := ⟨rfl, rfl, rfl, rfl⟩

/-- Eight bits and the acknowledgment pulse. -/
theorem counts_byteT (v : Byte) : Counts (byteT v) 54 27 27 :=
  (Counts.flatMap (fun i => counts_bitT (v.getLsbD i)) (List.range 8)).append counts_ackT

theorem counts_frameT (bs : List Byte) :
    Counts (frameT bs) (15 + 54 * bs.length) (8 + 27 * bs.length) (7 + 27 * bs.length) := by
  obtain ⟨-, -, -, time⟩ := (counts_startT.append (.flatMap counts_byteT bs)).append counts_stopT
  refine ⟨frameT_length bs, countSets_frameT bs, countWaits_frameT bs, ?_⟩
  rw [frameT, time]
  omega

theorem counts_dataCmdT : Counts dataCmdT 69 35 34 := counts_frameT [Config.cmdData]

theorem counts_dispCtrlT (b : BitVec 3) : Counts (dispCtrlT b) 69 35 34 := counts_frameT [dispByte b]

/-- The address command and the segment bytes, of which the permutation loses none (R93, R96). -/
theorem counts_dataXferT (p : Position) {segs : Segs} (taken : segCountOk segs = true) :
    Counts (dataXferT p segs) (15 + 54 * (segs.length + 1)) (8 + 27 * (segs.length + 1))
      (7 + 27 * (segs.length + 1)) := by
  rw [← permuted_length taken]
  exact counts_frameT (addrByte p :: permuted segs)

theorem counts_dataXferT_three (p : Position) {segs : Segs} (three : segs.length = 3) :
    Counts (dataXferT p segs) 231 116 115 := by
  simpa only [three] using counts_dataXferT p (segs := segs) (by simp [segCountOk, three])

theorem counts_dataXferT_six (p : Position) {segs : Segs} (six : segs.length = 6) :
    Counts (dataXferT p segs) 393 197 196 := by
  simpa only [six] using counts_dataXferT p (segs := segs) (by simp [segCountOk, six])

/-! ## The operations -/

theorem counts_setBrightnessT (b : BitVec 3) : Counts (setBrightnessT b) 138 70 68 :=
  counts_dataCmdT.append (counts_dispCtrlT b)

/-- INIT's two drives have no wait. -/
theorem counts_initT (b : BitVec 3) : Counts (initT b) 140 72 68 := by
  have drives : Counts [c0, d0] 2 2 0 := ⟨rfl, rfl, rfl, rfl⟩
  exact (drives.append counts_dataCmdT).append (counts_dispCtrlT b)

theorem counts_writeT_three (p : Position) {segs : Segs} (three : segs.length = 3) (b : BitVec 3) :
    Counts (writeT p segs b) 369 186 183 :=
  (counts_dataCmdT.append (counts_dataXferT_three p three)).append (counts_dispCtrlT b)

theorem counts_writeT_six (p : Position) {segs : Segs} (six : segs.length = 6) (b : BitVec 3) :
    Counts (writeT p segs b) 531 267 264 :=
  (counts_dataCmdT.append (counts_dataXferT_six p six)).append (counts_dispCtrlT b)

/-- The events an operation has added are those its trace ends with. -/
theorem Counts.added {es : List Event} {n sets waits : Nat} (h : Counts es n sets waits) {s t : State}
    (ht : t.trace = s.trace ++ es) : Counts (eventsSince s t) n sets waits :=
  (eventsSince_of_trace ht).symm ▸ h

/-- Settles O37: the sequences from their parts, and operation by operation the sequence that each adds. -/
theorem eventCounts : Obligations.EventCounts := by
  refine ⟨counts_startT, counts_stopT, counts_bitT, counts_ackT, counts_byteT, counts_frameT,
    fun p _ three => counts_dataXferT_three p three, fun p _ six => counts_dataXferT_six p six, fun i s t h => ?_⟩
  have added := (exec_effectOf h).trace
  cases i with
  | cmdData | cmdAddr _ | cmdDisp _ => trivial
  | init _ _ v => exact (counts_initT _).added added
  | setBrightness v => exact (counts_setBrightnessT _).added added
  | write segs pos =>
    obtain ⟨-, taken, -⟩ := exec_next h
    obtain six | three : segs.length = 6 ∨ segs.length = 3 := by simpa [segCountOk] using taken
    · exact .inl ⟨six, (counts_writeT_six _ six _).added added⟩
    · exact .inr ⟨three, (counts_writeT_three _ three _).added added⟩
  | showText _ _ | showHex _ | showNumber _ =>
    obtain ⟨-, segs, encoded, -, rfl⟩ := exec_next h
    exact (counts_writeT_six 0 (encodeString_length encoded) s.bright).added rfl
  | encodeDigit _ | encodeChar _ | encodeString _ => exact Counts.nil.added added
  | start => exact counts_startT.added added
  | stop => exact counts_stopT.added added
  | writeByte v => exact (counts_byteT v).added added
  | dataCmd => exact counts_dataCmdT.added added
  | dispCtrl => exact (counts_dispCtrlT _).added added

end Sys2Proof.Machine
end

section
/-! A reset, at an idle engine and inside an operation; that a request waits while the engine is busy; and that INIT
comes first (70_reset_and_hazards.md R140, R141, R145, R147). -/

namespace Sys2Proof.Machine

/-- Settles O7: a busy engine holds a request, and an engine to which nothing is presented is idle (entry 17). -/
theorem busyHoldsRequests : Obligations.BusyHoldsRequests :=
  ⟨fun _ _ _ _ _ busy waits => step_of_busy busy waits, fun _ empty => step_of_no_input empty⟩

/-- Settles O13: what `resetInput` writes and what it leaves. -/
theorem resetInputAsStated : Obligations.ResetInputAsStated := fun _ _ waits =>
  ⟨_, step_of_reset waits, rfl, rfl, rfl, rfl, rfl, rfl, rfl, rfl, rfl, rfl, rfl⟩

/-- Settles O36: the five operations make R122's third check first, the encoder's make none of `INITED`, and a reset
clears it. -/
theorem initComesFirst : Obligations.InitComesFirst := fun s uninit =>
  ⟨exec_setBrightness_of_uninitialised uninit, writeOp_of_uninitialised uninit,
    fun text _ => showOp_of_uninitialised uninit text, fun _ => showOp_of_uninitialised uninit _,
    fun _ => showOp_of_uninitialised uninit _, fun _ => ⟨_, rfl⟩, fun _ => ⟨_, rfl⟩,
    fun _ fits => ⟨_, exec_encodeString (encodeString_isSome fits) s⟩, State.resetInput_inited⟩

/-- An admitted operation that goes on runs to its end or to the reset that cuts it. -/
theorem runAdmitted_of_next {i : Instr} {s u : State} (h : exec i s = .next u) (cut : Option Nat) :
    runAdmitted i cut s = .next (settled cut s u) := by
  rw [runAdmitted, h]

/-- A step whose operation a reset cuts leaves a front of the operation's events and the reset state (R147). -/
theorem step_of_cut {s u : State} {who : Issuer} {bytes : List Byte} {k : Nat} {rest : List Input} {i : Instr}
    {es : List Event} (idle : s.busy = false) (waits : s.inputs = .request who bytes (some k) :: rest)
    (admits : admitted who bytes = .ok i) (he : exec i { s with inputs := rest } = .next u)
    (trace : u.trace = s.trace ++ es) :
    step s = .next { ({ s with inputs := rest } : State).resetInput with trace := s.trace ++ es.take k } := by
  have events : eventsSince { s with inputs := rest } u = es := eventsSince_of_trace trace
  rw [step_request idle waits admits, runAdmitted_of_next he, settled, events, State.cutShort_eq]

/-- An engine's own two outputs are two lines (entry 3), so that INIT runs on them where no other engine owns a line. -/
theorem exec_init_own_outputs {s : State} (uninit : s.inited = false) (alone : s.foreignLines = []) (v : Int) :
    ∃ t, exec (.init none none v) s = .next t :=
  ⟨_, exec_init_run uninit (by decide) (by simp [alone]) (by simp [alone]) v⟩

/-- Settles O14: the state that the step leaves, field by field, and INIT after it. -/
theorem resetCutsAnOperation : Obligations.ResetCutsAnOperation := by
  intro s u who bytes junk k rest i es idle waits decodes issuable he trace
  refine ⟨_, step_of_cut idle waits (admitted_of_decode decodes issuable) he trace,
    rfl, rfl, rfl, rfl, rfl, rfl, rfl, rfl, rfl, rfl, rfl, fun v alone => ?again⟩
  case again =>
    apply exec_init_own_outputs
    · rfl
    · exact alone

end Sys2Proof.Machine
end

section
/-! What INIT leaves on the wire after a frame that a reset cut (70_reset_and_hazards.md R147; 95_test_vectors.md
section 2; the observer is non-normative, entry 19). -/

namespace Sys2Proof.Machine

/-- INIT's two drives and the start condition after them, inside a frame: the clock rises once with the data line low,
then the data line rises, which closes the frame; from there it is a start condition outside a frame, with both lines
high. -/
theorem seeAll_drives_startT_of_open {o : Observer} {f : OpenFrame} (inside : o.frame = some f) :
    o.seeAll ([c0, d0] ++ startT) =
      (⟨some true, some true, none, o.done ++ [(f.pulse false).bytes]⟩ : Observer).seeAll startT := by
  obtain ⟨c, d, frame, fs⟩ := o
  obtain rfl : frame = some f := inside
  simp [Observer.seeAll, Observer.see, startT, wait10, c0, c1, d0, d1]

theorem seeAll_drives_frameT_of_open {o : Observer} {f : OpenFrame} (inside : o.frame = some f) (bs : List Byte) :
    o.seeAll ([c0, d0] ++ frameT bs) = ⟨some true, some true, none, o.done ++ [(f.pulse false).bytes] ++ [bs]⟩ := by
  calc o.seeAll ([c0, d0] ++ frameT bs)
      = (⟨some true, some true, none, o.done ++ [(f.pulse false).bytes]⟩ : Observer).seeAll (frameT bs) := by
        simp only [frameT, ← List.append_assoc, seeAll_append _ _ stopT, seeAll_append _ _ (bs.flatMap byteT),
          seeAll_drives_startT_of_open inside]
    _ = _ := seeAll_frameT rfl bs

/-- What INIT's events make of the observer: the frame it stands in, if there is one, is closed after one more clock
pulse with the data line low, and INIT's two frames are read after it. -/
theorem seeAll_initT (o : Observer) (b : BitVec 3) :
    o.seeAll (initT b) = ⟨some true, some true, none,
      o.done ++ (o.frame.map fun f => (f.pulse false).bytes).toList ++ [[Config.cmdData], [dispByte b]]⟩ := by
  cases frame : o.frame with
  | none =>
    have frames : initT b = [c0, d0] ++ [[Config.cmdData], [dispByte b]].flatMap frameT := by
      rw [flatMap_frameT_pair]; rfl
    rw [frames, seeAll_driven_frames frame (.inr rfl)]
    simp
  | some f =>
    rw [initT, dispCtrlT, seeAll_append, dataCmdT, seeAll_drives_frameT_of_open frame, seeAll_frameT rfl]
    simp

/-- Only a pulse after seven bits ends a byte. -/
theorem OpenFrame.pulse_bytes (level : Level) (f : OpenFrame) :
    (f.pulse level).bytes = if f.clocks = 7 then f.bytes ++ [byteOfBits (f.bits ++ [level])] else f.bytes := by
  unfold OpenFrame.pulse
  split_ifs with eighth seventh
  · omega
  · rfl
  · rfl
  · rfl

/-- Settles O57: INIT's events, seen in a frame and outside one. -/
theorem initAfterACut : Obligations.InitAfterACut := by
  intro trace b o p
  have seen : p = ⟨some true, some true, none,
      observe trace ++ (o.frame.map fun f => (f.pulse false).bytes).toList ++ [[Config.cmdData], [dispByte b]]⟩ :=
    (seeAll_append _ trace (initT b)).trans (seeAll_initT o b)
  have read : observe (trace ++ initT b) = p.done := rfl
  refine ⟨by rw [seen], by rw [seen], by rw [seen], ?_⟩
  rw [read, seen]
  cases o.frame with
  | none =>
    simp only [Option.map_none, Option.toList_none, List.append_nil]
    rfl
  | some f =>
    refine ⟨?_, OpenFrame.pulse_bytes false f⟩
    simp only [Option.map_some, Option.toList_some, List.append_assoc]
    rfl

end Sys2Proof.Machine
end

section
/-! The observer's reading of one whole frame, from its fresh state (92_eei_decisions.md D22; 95_test_vectors.md
section 2; the observer is non-normative, entry 19). -/

namespace Sys2Proof.Machine

/-- Settles O58: a fresh observer stands outside a frame and has read none. -/
theorem observerReadsFramesBack : Obligations.ObserverReadsFramesBack := by
  intro bs
  have outside : Observer.fresh.frame = none := rfl
  calc observe (frameT bs)
      = Observer.fresh.done ++ [bs] := congrArg Observer.done (seeAll_frameT outside bs)
    _ = [bs] := rfl

end Sys2Proof.Machine
end
